-- ==== Sys2Proof/Word.lean ====
section
/-! DEFINITION. The machine's words: bytes, 16-bit words, display rows and register indices
(spec/00_scope.md R9, R10; spec/10_state.md R20, R24, R30). -/

namespace Sys2Proof

/-- An 8-bit value: a register, a timer, a byte of memory (R9 `REG_W`, `TIMER_W`). -/
abbrev Byte := BitVec 8

/-- A 16-bit value: `PC`, `I`, an instruction word, a return address (R9 `PC_W`, `I_W`, `INSN_W`). -/
abbrev Word := BitVec 16

/-- One display row: bit `c` is column `c`, column 0 leftmost (R30). -/
abbrev Row := BitVec 64

/-- The index of a general register, 0x0 to 0xF (R9 `NREG`, R12). -/
abbrev Reg := Fin 16

/-- `VF`, register 0xF, the flag register (R12, R21). -/
abbrev VF : Reg := 15

end Sys2Proof
end

