-- ==== Sys2Proof/Syntax.lean ====
section
/-! DEFINITION. The 34 instructions of spec/opcode_table.json, one constructor per row
(spec/30_encoding.md R70 to R84; the count 34 is spec/90_conflicts.md C1). -/

namespace Sys2Proof

/-- The instructions. `x`, `y` are register indices, `nnn` a 12-bit address, `kk` an 8-bit immediate
and `n` a row count (R71, R73). `shr` and `shl` keep the `y` field they ignore (R74), so that an
instruction names its word. -/
inductive Instr where
  /-- `00E0` CLS (R210) -/
  | cls
  /-- `00EE` RET (R120) -/
  | ret
  /-- `1nnn` JP nnn (R121) -/
  | jp (nnn : BitVec 12)
  /-- `2nnn` CALL nnn (R122) -/
  | call (nnn : BitVec 12)
  /-- `3xkk` SE Vx, kk (R123) -/
  | seImm (x : Reg) (kk : Byte)
  /-- `4xkk` SNE Vx, kk (R124) -/
  | sneImm (x : Reg) (kk : Byte)
  /-- `5xy0` SE Vx, Vy (R125) -/
  | seReg (x y : Reg)
  /-- `6xkk` LD Vx, kk (R141) -/
  | ldImm (x : Reg) (kk : Byte)
  /-- `7xkk` ADD Vx, kk (R142) -/
  | addImm (x : Reg) (kk : Byte)
  /-- `8xy0` LD Vx, Vy (R143) -/
  | ldReg (x y : Reg)
  /-- `8xy1` OR Vx, Vy (R144) -/
  | orReg (x y : Reg)
  /-- `8xy2` AND Vx, Vy (R145) -/
  | andReg (x y : Reg)
  /-- `8xy3` XOR Vx, Vy (R146) -/
  | xorReg (x y : Reg)
  /-- `8xy4` ADD Vx, Vy (R147) -/
  | addReg (x y : Reg)
  /-- `8xy5` SUB Vx, Vy (R148) -/
  | sub (x y : Reg)
  /-- `8xy6` SHR Vx (R150) -/
  | shr (x y : Reg)
  /-- `8xy7` SUBN Vx, Vy (R149) -/
  | subn (x y : Reg)
  /-- `8xyE` SHL Vx (R151) -/
  | shl (x y : Reg)
  /-- `9xy0` SNE Vx, Vy (R126) -/
  | sneReg (x y : Reg)
  /-- `Annn` LD I, nnn (R170) -/
  | ldI (nnn : BitVec 12)
  /-- `Bnnn` JP V0, nnn (R127) -/
  | jpV0 (nnn : BitVec 12)
  /-- `Cxkk` RND Vx, kk (R152) -/
  | rnd (x : Reg) (kk : Byte)
  /-- `Dxyn` DRW Vx, Vy, n (R211) -/
  | drw (x y : Reg) (n : Nat)
  /-- `Ex9E` SKP Vx (R190) -/
  | skp (x : Reg)
  /-- `ExA1` SKNP Vx (R191) -/
  | sknp (x : Reg)
  /-- `Fx07` LD Vx, DT (R192) -/
  | ldVxDT (x : Reg)
  /-- `Fx0A` LD Vx, K (R193) -/
  | ldVxK (x : Reg)
  /-- `Fx15` LD DT, Vx (R194) -/
  | ldDTVx (x : Reg)
  /-- `Fx18` LD ST, Vx (R195) -/
  | ldSTVx (x : Reg)
  /-- `Fx1E` ADD I, Vx (R171) -/
  | addI (x : Reg)
  /-- `Fx29` LD F, Vx (R172) -/
  | ldF (x : Reg)
  /-- `Fx33` LD B, Vx (R173) -/
  | ldB (x : Reg)
  /-- `Fx55` LD [I], Vx (R174) -/
  | ldMemVx (x : Reg)
  /-- `Fx65` LD Vx, [I] (R175) -/
  | ldVxMem (x : Reg)
  deriving DecidableEq, Repr

end Sys2Proof
end

