-- ==== Sys2Proof/WellFormed.lean ====
section
/-! DEFINITION. Which terms of `Instr` an encoding can hold. Every operand but one has exactly its
field's width as its type; the row count of `drw` is a number, and its field has 4 bits
(spec/30_encoding.md R71, R73). -/

namespace Sys2Proof

/-- The operand's field is wide enough for it: "`n` is a 4-bit row count, 0 to 15" (R73).
DESIGN CHOICE (log 18): the count is a number, as the compositor's row list has any length (R212). -/
def Instr.wellFormed : Instr → Bool
  | .drw _ _ n => decide (n ≤ 15)
  | .cls | .ret | .jp _ | .call _ | .seImm _ _ | .sneImm _ _ | .seReg _ _ | .ldImm _ _
  | .addImm _ _ | .ldReg _ _ | .orReg _ _ | .andReg _ _ | .xorReg _ _ | .addReg _ _ | .sub _ _
  | .shr _ _ | .subn _ _ | .shl _ _ | .sneReg _ _ | .ldI _ | .jpV0 _ | .rnd _ _ | .skp _
  | .sknp _ | .ldVxDT _ | .ldVxK _ | .ldDTVx _ | .ldSTVx _ | .addI _ | .ldF _ | .ldB _
  | .ldMemVx _ | .ldVxMem _ => true

end Sys2Proof
end

