-- ==== Sys2Proof/Decode.lean ====
section
/-! DEFINITION. The decoder, a total function of the word alone (spec/40_decode_dispatch.md R102),
and after it the encoder, both from the tables of spec/30_encoding.md R71 to R80. PRESUMED (log 6): the
group and sub-opcode values are the spec's decision D5, taken from general knowledge. -/

namespace Sys2Proof

/-- Why a word or a list of bytes is no instruction. -/
inductive DecodeError where
  /-- the word matches no instruction (R81) -/
  | unknownOpcode (w : Word)
  /-- fewer bytes than an instruction has: every instruction is 2 bytes (R70) -/
  | truncated (bytes : List Byte)
  deriving DecidableEq, Repr

/-! ### The fields of a word (R71) -/

/-- `o = w[15:12]`, the group. -/
def fieldO (w : Word) : BitVec 4 := w.extractLsb' 12 4
/-- `w[11:8]` as bits. -/
def fieldXBits (w : Word) : BitVec 4 := w.extractLsb' 8 4
/-- `w[7:4]` as bits. -/
def fieldYBits (w : Word) : BitVec 4 := w.extractLsb' 4 4
/-- `n = w[3:0]`. -/
def fieldN (w : Word) : BitVec 4 := w.extractLsb' 0 4
/-- `kk = w[7:0]`. -/
def fieldKK (w : Word) : Byte := w.extractLsb' 0 8
/-- `nnn = w[11:0]`. -/
def fieldNNN (w : Word) : BitVec 12 := w.extractLsb' 0 12

/-- A 4-bit field names a register (R74). -/
def regOfBits (b : BitVec 4) : Reg := ⟨b.toNat, b.isLt⟩
/-- The 4-bit field that names a register (R74). -/
def bitsOfReg (r : Reg) : BitVec 4 := BitVec.ofNat 4 r.val

/-- `x`, the register index of `w[11:8]`. -/
def fieldX (w : Word) : Reg := regOfBits (fieldXBits w)
/-- `y`, the register index of `w[7:4]`. -/
def fieldY (w : Word) : Reg := regOfBits (fieldYBits w)

/-! ### Decoding -/

/-- Group 0x0: the whole word must match (R76). -/
def decodeGroup0 (w : Word) : Except DecodeError Instr :=
  if w = 0x00E0#16 then .ok .cls
  else if w = 0x00EE#16 then .ok .ret
  else .error (.unknownOpcode w)

/-- Group 0x8, discriminated by `n` (R78). -/
def decodeGroup8 (w : Word) : Except DecodeError Instr :=
  match (fieldN w).toNat with
  | 0x0 => .ok (.ldReg (fieldX w) (fieldY w))
  | 0x1 => .ok (.orReg (fieldX w) (fieldY w))
  | 0x2 => .ok (.andReg (fieldX w) (fieldY w))
  | 0x3 => .ok (.xorReg (fieldX w) (fieldY w))
  | 0x4 => .ok (.addReg (fieldX w) (fieldY w))
  | 0x5 => .ok (.sub (fieldX w) (fieldY w))
  | 0x6 => .ok (.shr (fieldX w) (fieldY w))
  | 0x7 => .ok (.subn (fieldX w) (fieldY w))
  | 0xE => .ok (.shl (fieldX w) (fieldY w))
  | _ => .error (.unknownOpcode w)

/-- Group 0xE, discriminated by `kk` (R79). -/
def decodeGroupE (w : Word) : Except DecodeError Instr :=
  match (fieldKK w).toNat with
  | 0x9E => .ok (.skp (fieldX w))
  | 0xA1 => .ok (.sknp (fieldX w))
  | _ => .error (.unknownOpcode w)

/-- Group 0xF, discriminated by `kk` (R80). -/
def decodeGroupF (w : Word) : Except DecodeError Instr :=
  match (fieldKK w).toNat with
  | 0x07 => .ok (.ldVxDT (fieldX w))
  | 0x0A => .ok (.ldVxK (fieldX w))
  | 0x15 => .ok (.ldDTVx (fieldX w))
  | 0x18 => .ok (.ldSTVx (fieldX w))
  | 0x1E => .ok (.addI (fieldX w))
  | 0x29 => .ok (.ldF (fieldX w))
  | 0x33 => .ok (.ldB (fieldX w))
  | 0x55 => .ok (.ldMemVx (fieldX w))
  | 0x65 => .ok (.ldVxMem (fieldX w))
  | _ => .error (.unknownOpcode w)

/-- Decode by group (R75); groups 0x5 and 0x9 require `n = 0` (R77). -/
def decode (w : Word) : Except DecodeError Instr :=
  match (fieldO w).toNat with
  | 0x0 => decodeGroup0 w
  | 0x1 => .ok (.jp (fieldNNN w))
  | 0x2 => .ok (.call (fieldNNN w))
  | 0x3 => .ok (.seImm (fieldX w) (fieldKK w))
  | 0x4 => .ok (.sneImm (fieldX w) (fieldKK w))
  | 0x5 => if fieldN w = 0#4 then .ok (.seReg (fieldX w) (fieldY w)) else .error (.unknownOpcode w)
  | 0x6 => .ok (.ldImm (fieldX w) (fieldKK w))
  | 0x7 => .ok (.addImm (fieldX w) (fieldKK w))
  | 0x8 => decodeGroup8 w
  | 0x9 => if fieldN w = 0#4 then .ok (.sneReg (fieldX w) (fieldY w)) else .error (.unknownOpcode w)
  | 0xA => .ok (.ldI (fieldNNN w))
  | 0xB => .ok (.jpV0 (fieldNNN w))
  | 0xC => .ok (.rnd (fieldX w) (fieldKK w))
  | 0xD => .ok (.drw (fieldX w) (fieldY w) (fieldN w).toNat)
  | 0xE => decodeGroupE w
  | _ => decodeGroupF w

/-- The word two bytes make, the first byte high: fetch is big-endian (R53, R70). -/
def wordOfBytes (hi lo : Byte) : Word := hi ++ lo
/-- The high byte of a word, stored at the lower address (R53, R70). -/
def hiByte (w : Word) : Byte := w.extractLsb' 8 8
/-- The low byte of a word, stored at the higher address (R53, R70). -/
def loByte (w : Word) : Byte := w.extractLsb' 0 8

/-- Decode the instruction at the front of a list of bytes, and the bytes after it (R70). -/
def decodeBytes : List Byte → Except DecodeError (Instr × List Byte)
  | hi :: lo :: rest =>
    match decode (wordOfBytes hi lo) with
    | .ok i => .ok (i, rest)
    | .error e => .error e
  | short => .error (.truncated short)

/-- The instruction word of a table row: its low `nbits` bits, every bit above them 0. -/
def tableWord (nbits w : Nat) : Word := BitVec.ofNat 16 (w % 2 ^ nbits)

/-- What the decoder reads from a table word stored as the hardware stores it, big-endian. -/
def decodeTableWord (nbits w : Nat) : Option Instr :=
  match decodeBytes [hiByte (tableWord nbits w), loByte (tableWord nbits w)] with
  | .ok (i, _) => some i
  | .error _ => none

/-! ### Encoding, by format (R72) -/

/-- `NNN`: `oooo aaaa aaaa aaaa`. -/
def fmtNNN (o : BitVec 4) (nnn : BitVec 12) : Word := o ++ nnn
/-- `XKK`: `oooo xxxx kkkk kkkk`. -/
def fmtXKK (o : BitVec 4) (x : Reg) (kk : Byte) : Word := o ++ bitsOfReg x ++ kk
/-- `XY0`, `XYS`, `XYN`: `oooo xxxx yyyy ssss`. -/
def fmtXYN (o : BitVec 4) (x y : Reg) (n : BitVec 4) : Word := o ++ bitsOfReg x ++ bitsOfReg y ++ n

/-- The word of an instruction (R72, R75 to R80). A `drw` that is not well formed has no word of
its own: its count is cut to the field. -/
def encode : Instr → Word
  | .cls => 0x00E0#16
  | .ret => 0x00EE#16
  | .jp nnn => fmtNNN 0x1#4 nnn
  | .call nnn => fmtNNN 0x2#4 nnn
  | .seImm x kk => fmtXKK 0x3#4 x kk
  | .sneImm x kk => fmtXKK 0x4#4 x kk
  | .seReg x y => fmtXYN 0x5#4 x y 0x0#4
  | .ldImm x kk => fmtXKK 0x6#4 x kk
  | .addImm x kk => fmtXKK 0x7#4 x kk
  | .ldReg x y => fmtXYN 0x8#4 x y 0x0#4
  | .orReg x y => fmtXYN 0x8#4 x y 0x1#4
  | .andReg x y => fmtXYN 0x8#4 x y 0x2#4
  | .xorReg x y => fmtXYN 0x8#4 x y 0x3#4
  | .addReg x y => fmtXYN 0x8#4 x y 0x4#4
  | .sub x y => fmtXYN 0x8#4 x y 0x5#4
  | .shr x y => fmtXYN 0x8#4 x y 0x6#4
  | .subn x y => fmtXYN 0x8#4 x y 0x7#4
  | .shl x y => fmtXYN 0x8#4 x y 0xE#4
  | .sneReg x y => fmtXYN 0x9#4 x y 0x0#4
  | .ldI nnn => fmtNNN 0xA#4 nnn
  | .jpV0 nnn => fmtNNN 0xB#4 nnn
  | .rnd x kk => fmtXKK 0xC#4 x kk
  | .drw x y n => fmtXYN 0xD#4 x y (BitVec.ofNat 4 n)
  | .skp x => fmtXKK 0xE#4 x 0x9E#8
  | .sknp x => fmtXKK 0xE#4 x 0xA1#8
  | .ldVxDT x => fmtXKK 0xF#4 x 0x07#8
  | .ldVxK x => fmtXKK 0xF#4 x 0x0A#8
  | .ldDTVx x => fmtXKK 0xF#4 x 0x15#8
  | .ldSTVx x => fmtXKK 0xF#4 x 0x18#8
  | .addI x => fmtXKK 0xF#4 x 0x1E#8
  | .ldF x => fmtXKK 0xF#4 x 0x29#8
  | .ldB x => fmtXKK 0xF#4 x 0x33#8
  | .ldMemVx x => fmtXKK 0xF#4 x 0x55#8
  | .ldVxMem x => fmtXKK 0xF#4 x 0x65#8

/-- The (match, mask) of an instruction's row of spec/opcode_table.json. -/
def opcodeRow : Instr → Word × Word
  | .cls => (0x00E0#16, 0xFFFF#16)
  | .ret => (0x00EE#16, 0xFFFF#16)
  | .jp _ => (0x1000#16, 0xF000#16)
  | .call _ => (0x2000#16, 0xF000#16)
  | .seImm _ _ => (0x3000#16, 0xF000#16)
  | .sneImm _ _ => (0x4000#16, 0xF000#16)
  | .seReg _ _ => (0x5000#16, 0xF00F#16)
  | .ldImm _ _ => (0x6000#16, 0xF000#16)
  | .addImm _ _ => (0x7000#16, 0xF000#16)
  | .ldReg _ _ => (0x8000#16, 0xF00F#16)
  | .orReg _ _ => (0x8001#16, 0xF00F#16)
  | .andReg _ _ => (0x8002#16, 0xF00F#16)
  | .xorReg _ _ => (0x8003#16, 0xF00F#16)
  | .addReg _ _ => (0x8004#16, 0xF00F#16)
  | .sub _ _ => (0x8005#16, 0xF00F#16)
  | .shr _ _ => (0x8006#16, 0xF00F#16)
  | .subn _ _ => (0x8007#16, 0xF00F#16)
  | .shl _ _ => (0x800E#16, 0xF00F#16)
  | .sneReg _ _ => (0x9000#16, 0xF00F#16)
  | .ldI _ => (0xA000#16, 0xF000#16)
  | .jpV0 _ => (0xB000#16, 0xF000#16)
  | .rnd _ _ => (0xC000#16, 0xF000#16)
  | .drw _ _ _ => (0xD000#16, 0xF000#16)
  | .skp _ => (0xE09E#16, 0xF0FF#16)
  | .sknp _ => (0xE0A1#16, 0xF0FF#16)
  | .ldVxDT _ => (0xF007#16, 0xF0FF#16)
  | .ldVxK _ => (0xF00A#16, 0xF0FF#16)
  | .ldDTVx _ => (0xF015#16, 0xF0FF#16)
  | .ldSTVx _ => (0xF018#16, 0xF0FF#16)
  | .addI _ => (0xF01E#16, 0xF0FF#16)
  | .ldF _ => (0xF029#16, 0xF0FF#16)
  | .ldB _ => (0xF033#16, 0xF0FF#16)
  | .ldMemVx _ => (0xF055#16, 0xF0FF#16)
  | .ldVxMem _ => (0xF065#16, 0xF0FF#16)

/-- An instruction as memory holds it, high byte first (R53, R70). -/
def encodeBytes (i : Instr) : List Byte := [hiByte (encode i), loByte (encode i)]

end Sys2Proof
end

