-- ==== Sys2Proof/Config.lean ====
section
/-! DEFINITION. What is fixed for the machine (spec/00_scope.md R9) and what the host chooses
(spec/60_exceptions.md R256 to R261). -/

namespace Sys2Proof

/-- The host's error value, "opaque to the CORE" (R240). DESIGN CHOICE (log 12): a number names it. -/
abbrev HostError := Nat

/-- What the key-state source answers to `KeyWait()` (R260). -/
inductive KeyAnswer where
  /-- no key yet -/
  | pending
  /-- one key, consumed by this answer -/
  | key (k : Byte)
  /-- the read failed -/
  | error (e : HostError)
  deriving DecidableEq, Repr, Inhabited

/-- What the host does between two CORE steps and answers during the second (R256). The host may
answer each query freshly, and no step makes more than one query. -/
structure HostTurn where
  /-- timer ticks taken before the step, zero or more (R258) -/
  ticks : Nat
  /-- bit `k` is the answer to `KeyHeld(k)`, for each of the 256 codes `k` (R259) -/
  held : BitVec 256
  /-- the answer to `KeyWait()` (R260) -/
  keyWait : KeyAnswer
  /-- the answer to `RandByte()` (R261) -/
  rand : Byte
  deriving DecidableEq, Repr, Inhabited

namespace Config

/-- `MEM_SIZE`, number of bytes of memory. DESIGN CHOICE (log 1): the default of R9. -/
def memSize : Nat := 4096

/-- `PROG_BASE`, load base and reset value of `PC`. PRESUMED (log 2): the default of R9. -/
def progBase : Word := 0x200

/-- `STACK_DEPTH`, call-stack capacity. DESIGN CHOICE (log 3): the default of R9. -/
def stackDepth : Nat := 16

/-- `FONT`, the 80 bytes at 0x000 to 0x04F at reset, glyph by glyph (R56).
PRESUMED (log 4): the default of R9. -/
def font : List Byte :=
  [0xF0, 0x90, 0x90, 0x90, 0xF0] ++ [0x20, 0x60, 0x20, 0x20, 0x70] ++   -- 0, 1
  [0xF0, 0x10, 0xF0, 0x80, 0xF0] ++ [0xF0, 0x10, 0xF0, 0x10, 0xF0] ++   -- 2, 3
  [0x90, 0x90, 0xF0, 0x10, 0x10] ++ [0xF0, 0x80, 0xF0, 0x10, 0xF0] ++   -- 4, 5
  [0xF0, 0x80, 0xF0, 0x90, 0xF0] ++ [0xF0, 0x10, 0x20, 0x40, 0x40] ++   -- 6, 7
  [0xF0, 0x90, 0xF0, 0x90, 0xF0] ++ [0xF0, 0x90, 0xF0, 0x10, 0xF0] ++   -- 8, 9
  [0xF0, 0x90, 0xF0, 0x90, 0x90] ++ [0xE0, 0x90, 0xE0, 0x90, 0xE0] ++   -- A, B
  [0xF0, 0x80, 0x80, 0x80, 0xF0] ++ [0xE0, 0x90, 0x90, 0x90, 0xE0] ++   -- C, D
  [0xF0, 0x80, 0xF0, 0x80, 0xF0] ++ [0xF0, 0x80, 0xF0, 0x80, 0x80]      -- E, F

/-- `KEY_CODES`: is `k` a code the key-wait source can supply? PRESUMED (log 5): the default of R9,
{0x00 .. 0x0F}. -/
def isKeyCode (k : Byte) : Bool := decide (k.toNat ≤ 0x0F)

/-- The host's `n`-th turn, where nothing in the state says what it is: a free value, under no law
(R258 to R261; log 7). -/
opaque hostTurn : Nat → HostTurn

end Config

end Sys2Proof
end

