-- ==== Sys2Proof/Machine/State.lean ====
section
/-! DEFINITION. The state of the CORE, as plain data, and the reasons a step can stop
(spec/10_state.md; spec/60_exceptions.md R240). -/

namespace Sys2Proof.Machine

/-- The five faults of the CORE (R240). A fault ends the step with the state unchanged (R242) and
the run with it (R244). All five are the spec's own, so stopping there is SAFE: where a driver goes
on after a fault, the model has no run (log 10). -/
inductive Fault where
  /-- Raised by the fetch of any instruction, and by DRW, LD B, LD [I], LD Vx,[I], at the first address
  `a >= MEM_SIZE` (R241, R247). Safe where the memory is larger than the model's (log 1). -/
  | memoryOutOfBounds (a : Nat)
  /-- Raised by CALL at address `p` with a full stack (R122). Safe where the stack is deeper than the
  model's (log 3). -/
  | stackOverflow (p : Word)
  /-- Raised by RET at address `p` with an empty stack (R120). Safe. -/
  | stackUnderflow (p : Word)
  /-- Raised by LD Vx, K when the host's read fails with `e` (R193). Safe. -/
  | inputSourceError (e : HostError)
  /-- Raised by decode of a word that is no instruction (R105). Safe where the software runs the word
  (log 6). -/
  | unknownOpcode (w : Word)
  deriving DecidableEq, Repr

/-- Why a step could have no meaning. -/
inductive Refusal where
  /-- Raised by an arm of `exec` whose instruction has no meaning yet; no arm does. Safe. -/
  | notModelled (mnemonic : String)
  deriving DecidableEq, Repr

/-- Memory: (address, byte) pairs, addresses strictly rising, listing exactly the bytes that differ
from what the address holds at reset (R31; log 4). -/
abbrev Memory := List Host.Cell

/-- The display: row `r`, 0 the top; in a row, bit `c` is column `c`, 0 the leftmost (R30). -/
abbrev Display := Vector Row 32

/-- The state: Machine State of spec/10_state.md, then the model's own record of the host. -/
structure State where
  /-- `V0` to `VF` (R20) -/
  v : Vector Byte 16
  /-- `I`, 16 bits, its value in 0x000 to 0xFFF (R23) -/
  idx : Word
  /-- `PC` (R24) -/
  pc : Word
  /-- the call stack's entries in use, top first; their number is `SP` (R27; log 11) -/
  stack : List Word
  /-- `DT` (R29) -/
  dt : Byte
  /-- `ST` (R29) -/
  st : Byte
  /-- `Disp` (R30) -/
  disp : Display
  /-- `Mem` (R31) -/
  mem : Memory
  /-- none, or the fault that ended the run (R34) -/
  fault : Option Fault
  /-- a wait-for-key is blocked (R33; log 9) -/
  waiting : Bool
  /-- the model's own: the host's turns known beforehand, the next one first (log 7) -/
  host : List HostTurn
  /-- the model's own: how many turns the host has taken (log 7) -/
  turns : Nat
  deriving DecidableEq, Repr

/-- How a call of `execute_one` that raises no fault ends (R8): beside `Fault f`, the outcome `fault` of
the host's interface, these two are the outcomes of a call. -/
inductive CallEnd where
  /-- `Ok` with the next state: one CORE step is over -/
  | ok (t : State)
  /-- `Blocked`: a wait-for-key found no key pending, and no CORE step was taken -/
  | blocked
  deriving DecidableEq, Repr

/-- `SP`, the number of entries in use (R27). -/
abbrev State.sp (s : State) : Nat := s.stack.length

/-- The state right after reset (R35, R270): "all fields zeroed except `program_counter`", memory
listing nothing, so that it holds its reset contents. `host` and `turns`: DESIGN CHOICE (log 7). -/
def State.reset : State where
  v := Vector.replicate 16 0
  idx := 0
  pc := Config.progBase
  stack := []
  dt := 0
  st := 0
  disp := Vector.replicate 32 0
  mem := []
  fault := none
  waiting := false
  host := []
  turns := 0

end Sys2Proof.Machine
end

