-- ==== Sys2Proof/Machine/Ops.lean ====
section
/-! DEFINITION. The named operations over memory, registers, the call stack and the host's turn, and
raising a fault (spec/10_state.md, spec/20_memory.md, spec/60_exceptions.md). -/

namespace Sys2Proof.Machine

/-! ### Memory (R50 to R63) -/

/-- What an address holds at reset, and so what an unlisted address reads as: `FONT` at 0x000 to
0x04F, 0x00 elsewhere (R35, R56; log 4). -/
def Memory.background (a : Nat) : Byte := (Config.font[a]?).getD 0

/-- The byte at address `a` (R60). -/
def Memory.read : Memory → Nat → Byte
  | [], a => Memory.background a
  | (b, u) :: m, a => if a = b then u else Memory.read m a

/-- Put `u` in front of `m`, unless it is what `a` reads as unlisted. -/
def Memory.cons (a : Nat) (u : Byte) (m : Memory) : Memory :=
  if u = Memory.background a then m else (a, u) :: m

/-- Write byte `u` at address `a`, keeping the canonical form (R60). -/
def Memory.write : Memory → Nat → Byte → Memory
  | [], a, u => Memory.cons a u []
  | (b, w) :: m, a, u =>
    if a < b then Memory.cons a u ((b, w) :: m)
    else if a = b then Memory.cons a u m
    else (b, w) :: Memory.write m a u

/-- The canonical form from address `lo` on: addresses rising, inside memory, and no entry equal to
what an unlisted address reads as. -/
def Memory.wfFrom (lo : Nat) : Memory → Bool
  | [] => true
  | (a, u) :: m =>
    decide (lo ≤ a) && decide (a < Config.memSize) && !decide (u = Memory.background a)
      && Memory.wfFrom (a + 1) m

/-- The canonical form of memory. -/
def Memory.wf (m : Memory) : Bool := Memory.wfFrom 0 m

/-- The `n` bytes from address `a` on, lowest address first (R54). -/
def Memory.readBytes (m : Memory) (a : Nat) : Nat → List Byte
  | 0 => []
  | n + 1 => m.read a :: Memory.readBytes m (a + 1) n

/-- Write the bytes from address `a` on, the first at the lowest address (R54). -/
def Memory.writeBytes (m : Memory) (a : Nat) : List Byte → Memory
  | [] => m
  | b :: bs => Memory.writeBytes (m.write a b) (a + 1) bs

/-- The lowest address out of range among the `n` addresses from `a` on (R52, R247). -/
def firstOutOfRange (a : Nat) : Nat → Option Nat
  | 0 => none
  | n + 1 => if a < Config.memSize then firstOutOfRange (a + 1) n else some a

/-! ### Faults (R240 to R247) -/

/-- Raise a fault: the step ends with it and changes nothing (R242, R243). There is no trap entry to
perform and no return from one (R244, R246). -/
def raise {σ : Type} (f : Fault) : Host.Outcome σ Fault Refusal := .fault f

/-- "The model then sets `fault`" (R242); once set it is never changed (R34). DESIGN CHOICE (log 9): it
leaves `waiting` as it was, also where an `InputSourceError` ends a blocked wait (R253). -/
def State.recordFault (f : Fault) (s : State) : State :=
  match s.fault with
  | some _ => s
  | none => { s with fault := some f }

/-- Go on as `k` says where every one of the `n` addresses from `a` on is in range; else raise
`MemoryOutOfBounds` of the lowest that is not. Nothing is written before the check (R52, R106). -/
def checkRange {σ : Type} (a n : Nat) (k : Host.Outcome σ Fault Refusal) :
    Host.Outcome σ Fault Refusal :=
  match firstOutOfRange a n with
  | some b => raise (.memoryOutOfBounds b)
  | none => k

/-! ### Registers and the program counter -/

/-- `V[r]` (R20). -/
def State.readV (s : State) (r : Reg) : Byte := s.v[r.val]

/-- `V[r] <- b` (R20). -/
def State.writeV (s : State) (r : Reg) (b : Byte) : State := { s with v := s.v.set r.val b }

/-- `I <- a`, "masked to 12 bits after every operation that modifies it" (R23). -/
def State.writeI (s : State) (a : Word) : State := { s with idx := a &&& 0x0FFF#16 }

/-- `PC <- a` (R24). -/
def State.writePC (s : State) (a : Word) : State := { s with pc := a }

/-- `PC <- P + 2`, modulo 2^16 (R26, R104). -/
def State.advance (s : State) : State := s.writePC (s.pc + 2)

/-- A skip: `PC <- P + 4` if the condition holds, else `PC <- P + 2` (R104). -/
def State.skipIf (c : Bool) (s : State) : State := s.writePC (if c then s.pc + 4 else s.pc + 2)

/-! ### The call stack (R27, R28) -/

/-- `Push(a)`, then go on as `k` says; a full stack raises `StackOverflow(PC)` (R28). A stack longer
than its capacity, which no run reaches, counts as full (log 11). -/
def push (s : State) (a : Word) (k : State → Host.Outcome State Fault Refusal) :
    Host.Outcome State Fault Refusal :=
  if Config.stackDepth ≤ s.sp then raise (.stackOverflow s.pc)
  else k { s with stack := a :: s.stack }

/-- `Pop()`, then go on as `k` says with the popped value; an empty stack raises
`StackUnderflow(PC)` (R28). -/
def pop (s : State) (k : Word → State → Host.Outcome State Fault Refusal) :
    Host.Outcome State Fault Refusal :=
  match s.stack with
  | [] => raise (.stackUnderflow s.pc)
  | a :: rest => k a { s with stack := rest }

/-- `Stack[n]`, for `n` below `SP` (R27): entry 0 is the oldest. -/
def State.stackEntry (s : State) (n : Nat) : Option Word := s.stack.reverse[n]?

/-! ### The host (R256 to R261) -/

/-- One tick of a timer: "a countdown that stops at zero" (R258). -/
def tick (t : Byte) : Byte := if t = 0 then 0 else t - 1

/-- A timer after `n` ticks (R258). -/
def timerAfter (n : Nat) (t : Byte) : Byte := if t = 0 then 0 else BitVec.ofNat 8 (t.toNat - n)

/-- What the host does in this turn: the next turn of the state's list, and past its end a free
value (log 7). -/
def State.hostTurn (s : State) : HostTurn :=
  match s.host with
  | t :: _ => t
  | [] => Config.hostTurn s.turns

/-- The host acts before the step: it ticks both timers any number of times (R258; log 8). -/
def State.beginTurn (s : State) : State :=
  { s with dt := timerAfter s.hostTurn.ticks s.dt, st := timerAfter s.hostTurn.ticks s.st }

/-- The host's turn is over (log 7). -/
def State.endTurn (s : State) : State := { s with host := s.host.tail, turns := s.turns + 1 }

/-- `KeyHeld(k)`: the host's answer to the query about code `k`, all 8 bits (R190, R259). -/
def State.keyHeld (s : State) (k : Byte) : Bool := s.hostTurn.held.getLsbD k.toNat

/-- `KeyWait()`: `Pending`, `Key(k)` with `k` in `KEY_CODES`, or `Error(e)` (R260). A key outside
`KEY_CODES` is no answer the source gives: it counts as `Pending` (log 5). -/
def State.keyWait (s : State) : KeyAnswer :=
  match s.hostTurn.keyWait with
  | .key k => if Config.isKeyCode k then .key k else .pending
  | .pending => .pending
  | .error e => .error e

/-- `RandByte()` (R261). -/
def State.randByte (s : State) : Byte := s.hostTurn.rand

/-- The program loader: it writes the image at `PROG_BASE` onward, and never one that does not fit
(R257). Such a call loads nothing (log 13). -/
def State.load (image : List Byte) (s : State) : State :=
  if Config.progBase.toNat + image.length ≤ Config.memSize then
    { s with mem := s.mem.writeBytes Config.progBase.toNat image }
  else s

/-- Store a word where the next instruction is fetched, high byte first; where the two bytes at `PC`
are not both in memory, nothing can be fetched and nothing is stored (log 13). -/
def State.placeAtPC (s : State) (w : Word) : State :=
  if s.pc.toNat + 1 < Config.memSize then
    { s with mem := s.mem.writeBytes s.pc.toNat [hiByte w, loByte w] }
  else s

/-! ### Fetch (R53, R101) -/

/-- Fetch the big-endian word at `PC` and give it to `k`; a byte out of range raises
`MemoryOutOfBounds` of the lower one that is (R101, R247). Fetch writes nothing. -/
def fetch {σ : Type} (s : State) (k : Word → Host.Outcome σ Fault Refusal) :
    Host.Outcome σ Fault Refusal :=
  checkRange s.pc.toNat 2
    (k (wordOfBytes (s.mem.read s.pc.toNat) (s.mem.read (s.pc.toNat + 1))))

/-- Decode the word and give the instruction to `k`; a word that is none raises
`UnknownOpcode(w)` (R100, R105). -/
def decodeThen {σ : Type} (w : Word) (k : Instr → Host.Outcome σ Fault Refusal) :
    Host.Outcome σ Fault Refusal :=
  match decode w with
  | .ok i => k i
  | .error _ => raise (.unknownOpcode w)

/-! ### One call of `execute_one` (R8, R100) -/

/-- A wait-for-key is blocked: the CORE has written nothing and `PC` stays (R33). Only the wait itself
is noted. -/
def State.noteWait (s : State) : State := { s with waiting := true }

/-- Is it the wait-for-key, "the single suspension point in the system" (R253)? -/
def isKeyWait : Instr → Bool
  | .ldVxK _ => true
  | .cls | .ret | .jp _ | .call _ | .seImm _ _ | .sneImm _ _ | .seReg _ _ | .ldImm _ _
  | .addImm _ _ | .ldReg _ _ | .orReg _ _ | .andReg _ _ | .xorReg _ _ | .addReg _ _ | .sub _ _
  | .shr _ _ | .subn _ _ | .shl _ _ | .sneReg _ _ | .ldI _ | .jpV0 _ | .rnd _ _ | .drw _ _ _
  | .skp _ | .sknp _ | .ldVxDT _ | .ldDTVx _ | .ldSTVx _ | .addI _ | .ldF _ | .ldB _
  | .ldMemVx _ | .ldVxMem _ => false

/-- How the call that executed `i` ends (R8): `Blocked` where `i` is a wait-for-key that still waits,
else `Ok` with the next state, or the instruction's fault. -/
def endOfCall (i : Instr) :
    Host.Outcome State Fault Refusal → Host.Outcome CallEnd Fault Refusal
  | .next t => if isKeyWait i && t.waiting then .next .blocked else .next (.ok t)
  | .fault f => .fault f
  | .refused r => .refused r

/-- One call of `execute_one`, for an executor `ex` of decoded instructions: fetch, decode, execute
(R100). Where `fault` is set there is no step: the answer is the fault that ended the run (R34). -/
def callWith (ex : Instr → State → Host.Outcome State Fault Refusal) (s : State) :
    Host.Outcome CallEnd Fault Refusal :=
  match s.fault with
  | some f => raise f
  | none => fetch s (fun w => decodeThen w (fun i => endOfCall i (ex i s)))

/-- What the host's interface shows of a call from `s`: it has no outcome of its own for `Blocked`, so
a blocked call shows `s` with the wait noted, although no CORE step was taken (log 9). -/
def State.shown (s : State) :
    Host.Outcome CallEnd Fault Refusal → Host.Outcome State Fault Refusal
  | .next (.ok t) => .next t
  | .next .blocked => .next s.noteWait
  | .fault f => .fault f
  | .refused r => .refused r

/-- The host's turn passes where a next state is shown. -/
def finishTurn : Host.Outcome State Fault Refusal → Host.Outcome State Fault Refusal
  | .next t => .next t.endTurn
  | .fault f => .fault f
  | .refused r => .refused r

/-- The state after one call of `execute_one`, given its outcome: a fault changes nothing but
`fault` (R242), a blocked call nothing but the note that it waits (R33). -/
def State.afterOutcome (s : State) : Host.Outcome CallEnd Fault Refusal → State
  | .next (.ok t) => t
  | .next .blocked => s.noteWait
  | .fault f => s.recordFault f
  | .refused _ => s

/-- How many CORE steps end with `Ok` in the first `n` turns of the host, for a call `call`: a turn in
which the call is blocked holds none, as `Blocked` is not a step (R8). -/
def okStepsWith (call : State → Host.Outcome CallEnd Fault Refusal) : Nat → State → Nat
  | 0, _ => 0
  | n + 1, s =>
    match call s.beginTurn with
    | .next (.ok t) => okStepsWith call n t.endTurn + 1
    | .next .blocked => okStepsWith call n s.beginTurn.noteWait.endTurn
    | .fault _ => 0
    | .refused _ => 0

end Sys2Proof.Machine
end

