-- ==== Sys2Proof/Machine/Flags.lean ====
section
/-! DEFINITION. The values `VF` takes (spec/10_state.md R21): carry, not-borrow, the bit shifted out,
collision; each is 0 or 1 (spec/42_alu.md R153). -/

namespace Sys2Proof.Machine

/-- The flag of a condition: 1 if it holds, else 0 (R153). -/
def flagOf (c : Bool) : Byte := if c then 1 else 0

/-- Carry of `a + b`: "1 if the sum exceeds the 8-bit range, else 0" (R147). -/
def carryFlag (a b : Byte) : Byte := flagOf (decide (a.toNat + b.toNat > 255))

/-- Not-borrow of `a - b`: 0 if `b > a`, else 1 (R148). -/
def notBorrowFlag (a b : Byte) : Byte := flagOf (!decide (b.toNat > a.toNat))

/-- The bit a shift right by one moves out, bit 0 (R150). -/
def lowBitFlag (a : Byte) : Byte := a &&& 1#8

/-- The bit a shift left by one moves out, bit 7 (R151). -/
def highBitFlag (a : Byte) : Byte := (a >>> 7) &&& 1#8

/-- `V[x] <- r` and then `VF <- f`, so that with `x = F` the flag stays (R140; log 15). -/
def State.writeWithFlag (s : State) (x : Reg) (r f : Byte) : State := (s.writeV x r).writeV VF f

end Sys2Proof.Machine
end

