-- ==== Sys2Proof/Machine/Operands.lean ====
section
/-! DEFINITION. The operand forms (spec/30_encoding.md R73, R74; spec/20_memory.md R51): immediates,
zero-extended, and the one data addressing mode, register-indirect `I + k`. Register operands are
`State.readV` of the register's index. -/

namespace Sys2Proof.Machine

/-- An address immediate: `nnn` zero-extended to 16 bits (R73). -/
def addrImm (nnn : BitVec 12) : Word := nnn.setWidth 16

/-- The jump-indirect target: `(nnn + V0)`, modulo 2^16, not masked to 12 bits (R127; log 14). -/
def indirectTarget (s : State) (nnn : BitVec 12) : Word := addrImm nnn + (s.readV 0).setWidth 16

/-- The data address `I + k`, a natural number, never wrapped (R51, R52). -/
def dataAddr (s : State) (k : Nat) : Nat := s.idx.toNat + k

/-- `(I + V[x])`, before the mask to 12 bits (R171). -/
def indexSum (s : State) (x : Reg) : Word := s.idx + (s.readV x).setWidth 16

/-- The address of the glyph of a hex digit, `(b & 0x0F) * 5` (R172). -/
def glyphAddr (b : Byte) : Word := (b &&& 0x0F#8).setWidth 16 * 5

/-- The three decimal digits of a byte, hundreds first (R173). -/
def bcdDigits (b : Byte) : List Byte :=
  [BitVec.ofNat 8 (b.toNat / 100), BitVec.ofNat 8 (b.toNat / 10 % 10), BitVec.ofNat 8 (b.toNat % 10)]

/-- `V0` to `Vx`, in order (R174). -/
def regsUpTo (s : State) (x : Reg) : List Byte := s.v.toList.take (x.val + 1)

/-- `V[k] <- Mem[I + k]` for `k` from 0 to `x`, the other registers unchanged (R175). -/
def loadRegsUpTo (s : State) (x : Reg) : State :=
  { s with v := Vector.ofFn fun k => if k ≤ x then s.mem.read (dataAddr s k.val) else s.readV k }

end Sys2Proof.Machine
end

