-- ==== Sys2Proof/Machine/Alu.lean ====
section
/-! DEFINITION. ALU and register moves (spec/42_alu.md). All values are 8-bit unsigned and wrap
modulo 256 (R153). -/

namespace Sys2Proof.Machine

/-- `LD Vx, kk` (R141). -/
def execLdImm (x : Reg) (kk : Byte) (s : State) : Host.Outcome State Fault Refusal :=
  .next (s.writeV x kk).advance

/-- `ADD Vx, kk` (R142): no flag. -/
def execAddImm (x : Reg) (kk : Byte) (s : State) : Host.Outcome State Fault Refusal :=
  .next (s.writeV x (s.readV x + kk)).advance

/-- `LD Vx, Vy` (R143). -/
def execLdReg (x y : Reg) (s : State) : Host.Outcome State Fault Refusal :=
  .next (s.writeV x (s.readV y)).advance

/-- `OR Vx, Vy` (R144). -/
def execOrReg (x y : Reg) (s : State) : Host.Outcome State Fault Refusal :=
  .next (s.writeV x (s.readV x ||| s.readV y)).advance

/-- `AND Vx, Vy` (R145). -/
def execAndReg (x y : Reg) (s : State) : Host.Outcome State Fault Refusal :=
  .next (s.writeV x (s.readV x &&& s.readV y)).advance

/-- `XOR Vx, Vy` (R146). -/
def execXorReg (x y : Reg) (s : State) : Host.Outcome State Fault Refusal :=
  .next (s.writeV x (s.readV x ^^^ s.readV y)).advance

/-- `ADD Vx, Vy` (R147): `VF` is the carry. -/
def execAddReg (x y : Reg) (s : State) : Host.Outcome State Fault Refusal :=
  .next (s.writeWithFlag x (s.readV x + s.readV y) (carryFlag (s.readV x) (s.readV y))).advance

/-- `SUB Vx, Vy` (R148): `VF` is not-borrow. -/
def execSub (x y : Reg) (s : State) : Host.Outcome State Fault Refusal :=
  .next (s.writeWithFlag x (s.readV x - s.readV y) (notBorrowFlag (s.readV x) (s.readV y))).advance

/-- `SHR Vx` (R150): in place, `y` ignored; `VF` is the bit shifted out. -/
def execShr (x _y : Reg) (s : State) : Host.Outcome State Fault Refusal :=
  .next (s.writeWithFlag x (s.readV x >>> 1) (lowBitFlag (s.readV x))).advance

/-- `SUBN Vx, Vy` (R149): `Vy - Vx`; `VF` is not-borrow. -/
def execSubn (x y : Reg) (s : State) : Host.Outcome State Fault Refusal :=
  .next (s.writeWithFlag x (s.readV y - s.readV x) (notBorrowFlag (s.readV y) (s.readV x))).advance

/-- `SHL Vx` (R151): in place, `y` ignored; `VF` is the bit shifted out. -/
def execShl (x _y : Reg) (s : State) : Host.Outcome State Fault Refusal :=
  .next (s.writeWithFlag x (s.readV x <<< 1) (highBitFlag (s.readV x))).advance

/-- `RND Vx, kk` (R152): the host's byte, under no law, masked. -/
def execRnd (x : Reg) (kk : Byte) (s : State) : Host.Outcome State Fault Refusal :=
  .next (s.writeV x (s.randByte &&& kk)).advance

end Sys2Proof.Machine
end

