-- ==== Sys2Proof/Machine/ControlFlow.lean ====
section
/-! DEFINITION. Control transfer and skips (spec/41_control_flow.md). -/

namespace Sys2Proof.Machine

/-- `RET` (R120): the popped value is used as is. -/
def execRet (s : State) : Host.Outcome State Fault Refusal :=
  pop s fun a t => .next (t.writePC a)

/-- `JP nnn` (R121). -/
def execJp (nnn : BitVec 12) (s : State) : Host.Outcome State Fault Refusal :=
  .next (s.writePC (addrImm nnn))

/-- `CALL nnn` (R122): the pushed value is `P + 2`. -/
def execCall (nnn : BitVec 12) (s : State) : Host.Outcome State Fault Refusal :=
  push s (s.pc + 2) fun t => .next (t.writePC (addrImm nnn))

/-- `SE Vx, kk` (R123). -/
def execSeImm (x : Reg) (kk : Byte) (s : State) : Host.Outcome State Fault Refusal :=
  .next (s.skipIf (s.readV x == kk))

/-- `SNE Vx, kk` (R124). -/
def execSneImm (x : Reg) (kk : Byte) (s : State) : Host.Outcome State Fault Refusal :=
  .next (s.skipIf (s.readV x != kk))

/-- `SE Vx, Vy` (R125). -/
def execSeReg (x y : Reg) (s : State) : Host.Outcome State Fault Refusal :=
  .next (s.skipIf (s.readV x == s.readV y))

/-- `SNE Vx, Vy` (R126). -/
def execSneReg (x y : Reg) (s : State) : Host.Outcome State Fault Refusal :=
  .next (s.skipIf (s.readV x != s.readV y))

/-- `JP V0, nnn` (R127). -/
def execJpV0 (nnn : BitVec 12) (s : State) : Host.Outcome State Fault Refusal :=
  .next (s.writePC (indirectTarget s nnn))

end Sys2Proof.Machine
end

