-- ==== Sys2Proof/Machine/Display.lean ====
section
/-! DEFINITION. Display clear, sprite draw and the compositor (spec/45_display.md). -/

namespace Sys2Proof.Machine

/-- Pixel `j` of a sprite byte, bit `7 - j`, at column `(x0 + j) % 64` (R216; log 17). -/
def pixelMask (b : Byte) (x0 j : Nat) : Row :=
  ((b >>> (7 - j)) &&& 1#8).setWidth 64 <<< ((x0 + j) % 64)

/-- `RowMask(b, x0)`: the OR of the eight pixels (R216). -/
def rowMask (b : Byte) (x0 : Nat) : Row :=
  (List.range 8).foldl (fun m j => m ||| pixelMask b x0 j) 0

/-- `Disp[r]` (R30). -/
def Display.row (d : Display) (r : Fin 32) : Row := d[r.val]

/-- The row a sprite row falls on: `(y0 + i) % 32` (R212; spec/90_conflicts.md C3). -/
def targetRow (y0 i : Nat) : Fin 32 := ⟨(y0 + i) % 32, Nat.mod_lt _ (by decide)⟩

/-- Composite one sprite row: the collision test on the row as it was, then the XOR (R212, R217). -/
def compositeRow (d : Display) (r : Fin 32) (m : Row) : Display × Bool :=
  (d.set r.val (d.row r ^^^ m), (d.row r &&& m) != 0)

/-- The compositor's loop from row `i` of the sprite on, with the collision so far (R212). -/
def compositeFrom (x0 y0 : Nat) : Nat → List Byte → Display → Bool → Display × Bool
  | _, [], d, coll => (d, coll)
  | i, b :: bs, d, coll =>
    let (d', c) := compositeRow d (targetRow y0 i) (rowMask b x0)
    compositeFrom x0 y0 (i + 1) bs d' (coll || c)

/-- `CompositeSprite(cx, cy, rows)`, the source's `composite_sprite`, which can be called
standalone: coordinates are taken modulo the display's dimensions first (R6, R212, R215). -/
def compositeSprite (d : Display) (cx cy : Nat) (rows : List Byte) : Display × Bool :=
  compositeFrom (cx % 64) (cy % 32) 0 rows d false

/-- Every bit off (R210). -/
def Display.clear : Display := Vector.replicate 32 0

/-- `CLS` (R210). -/
def execCls (s : State) : Host.Outcome State Fault Refusal :=
  .next { s with disp := Display.clear }.advance

/-- Composite the sprite at `(V[x], V[y])`, both read first, then write `VF` once (R211, R214). -/
def drawSprite (s : State) (x y : Reg) (rows : List Byte) : State :=
  let r := compositeSprite s.disp (s.readV x).toNat (s.readV y).toNat rows
  { s with disp := r.1 }.writeV VF (flagOf r.2)

/-- `DRW Vx, Vy, n` (R211): row `i` of the sprite is `Mem[I + i]` (R213; log 17); `n = 0` draws no row
(log 18). -/
def execDrw (x y : Reg) (n : Nat) (s : State) : Host.Outcome State Fault Refusal :=
  checkRange (dataAddr s 0) n
    (.next (drawSprite s x y (s.mem.readBytes (dataAddr s 0) n)).advance)

end Sys2Proof.Machine
end

