-- ==== Sys2Proof/Machine/IndexMemory.lean ====
section
/-! DEFINITION. Index register and memory transfers (spec/43_index_memory.md). Every address is checked
before the first write, and `I` is unchanged by the three transfers. -/

namespace Sys2Proof.Machine

/-- `LD I, nnn` (R170). -/
def execLdI (nnn : BitVec 12) (s : State) : Host.Outcome State Fault Refusal :=
  .next (s.writeI (addrImm nnn)).advance

/-- `ADD I, Vx` (R171): masked to 12 bits, no flag. -/
def execAddI (x : Reg) (s : State) : Host.Outcome State Fault Refusal :=
  .next (s.writeI (indexSum s x)).advance

/-- `LD F, Vx` (R172). -/
def execLdF (x : Reg) (s : State) : Host.Outcome State Fault Refusal :=
  .next (s.writeI (glyphAddr (s.readV x))).advance

/-- Store bytes at `I` onward, or raise `MemoryOutOfBounds` of the lowest address out of range
(R173, R174). -/
def storeAtI (s : State) (bytes : List Byte) : Host.Outcome State Fault Refusal :=
  checkRange (dataAddr s 0) bytes.length
    (.next { s with mem := s.mem.writeBytes (dataAddr s 0) bytes }.advance)

/-- `LD B, Vx` (R173). -/
def execLdB (x : Reg) (s : State) : Host.Outcome State Fault Refusal :=
  storeAtI s (bcdDigits (s.readV x))

/-- `LD [I], Vx` (R174). -/
def execLdMemVx (x : Reg) (s : State) : Host.Outcome State Fault Refusal :=
  storeAtI s (regsUpTo s x)

/-- `LD Vx, [I]` (R175). -/
def execLdVxMem (x : Reg) (s : State) : Host.Outcome State Fault Refusal :=
  checkRange (dataAddr s 0) (x.val + 1) (.next (loadRegsUpTo s x).advance)

end Sys2Proof.Machine
end

