-- ==== Sys2Proof/Machine/IoTimers.lean ====
section
/-! DEFINITION. Key input and timer access (spec/44_io_timers.md). -/

namespace Sys2Proof.Machine

/-- `SKP Vx` (R190): the key asked about is `V[x]`, all 8 bits. -/
def execSkp (x : Reg) (s : State) : Host.Outcome State Fault Refusal :=
  .next (s.skipIf (s.keyHeld (s.readV x)))

/-- `SKNP Vx` (R191). -/
def execSknp (x : Reg) (s : State) : Host.Outcome State Fault Refusal :=
  .next (s.skipIf (!s.keyHeld (s.readV x)))

/-- `LD Vx, DT` (R192). -/
def execLdVxDT (x : Reg) (s : State) : Host.Outcome State Fault Refusal :=
  .next (s.writeV x s.dt).advance

/-- `Blocked` (R193): nothing is written but the note of the wait, by which the call around it knows that
no step was taken (`endOfCall`). DESIGN CHOICE (log 9): the note stands for the outcome here, where the
host's interface has no third one. -/
def blocked (s : State) : Host.Outcome State Fault Refusal := .next s.noteWait

/-- `LD Vx, K` (R193). -/
def execLdVxK (x : Reg) (s : State) : Host.Outcome State Fault Refusal :=
  match s.keyWait with
  | .pending => blocked s
  | .error e => raise (.inputSourceError e)
  | .key k => .next ({ s with waiting := false }.writeV x k).advance

/-- `LD DT, Vx` (R194). -/
def execLdDTVx (x : Reg) (s : State) : Host.Outcome State Fault Refusal :=
  .next { s with dt := s.readV x }.advance

/-- `LD ST, Vx` (R195). -/
def execLdSTVx (x : Reg) (s : State) : Host.Outcome State Fault Refusal :=
  .next { s with st := s.readV x }.advance

end Sys2Proof.Machine
end

