-- ==== Sys2Proof/Machine/Step.lean ====
section
/-! DEFINITION. One step (spec/40_decode_dispatch.md R100): the host's turn, then one call of
`execute_one` (spec/00_scope.md R5, R6, R8). -/

namespace Sys2Proof.Machine

/-- One call of `execute_one(state)`: fetch, decode and execute exactly one instruction (R6, R100). It
ends in one of the three outcomes of R8: `Ok` with the next state (`.next (.ok t)`), `Fault f`
(`.fault f`) or `Blocked` (`.next .blocked`). -/
def executeOne (s : State) : Host.Outcome CallEnd Fault Refusal := callWith exec s

/-- The state after one call of `execute_one`; after a fault, `fault` is set and nothing else has
changed (R242). -/
def stateAfter (s : State) : State := s.afterOutcome (executeOne s)

/-- One turn of the model, `step` for the host's interface: the host ticks the timers, `execute_one` is
called with the host's answers, and the host's turn is over (R5, R258; log 7, 8). It holds one CORE
step, or none where the call is blocked (R8; log 9). -/
def step (s : State) : Host.Outcome State Fault Refusal :=
  finishTurn (s.beginTurn.shown (executeOne s.beginTurn))

/-- How many CORE steps end with `Ok` in the first `n` turns from `s`. Blocked turns are not counted:
"`Blocked` is not a step" (R8). -/
def okSteps (n : Nat) (s : State) : Nat := okStepsWith executeOne n s

/-- The state with a table word stored where the next instruction is fetched. -/
def State.withFetchWord (s : State) (nbits w : Nat) : State := s.placeAtPC (tableWord nbits w)

end Sys2Proof.Machine
end

