-- ==== Sys2Proof/Safety.lean ====
section
/-! DEFINITION. The terms claims use: what a step may change, the machine's invariant, and how a run
ends. -/

namespace Sys2Proof.Machine

/-! ### Frames -/

/-- The parts of the CORE beside the general registers, `PC` and memory that an instruction may
write. -/
inductive Part where
  | idx | stack | dt | st | disp | waiting
  deriving DecidableEq, Repr

/-- A part is the same in both states. -/
def Part.Kept (s t : State) : Part → Prop
  | .idx => t.idx = s.idx
  | .stack => t.stack = s.stack
  | .dt => t.dt = s.dt
  | .st => t.st = s.st
  | .disp => t.disp = s.disp
  | .waiting => t.waiting = s.waiting

/-- From `s` to `t` nothing changed but `PC`, the registers of `regs`, the parts of `parts` and the
bytes of memory at the addresses of `addrs`. -/
def Frame (regs : List Reg) (parts : List Part) (addrs : List Nat) (s t : State) : Prop :=
  (∀ r, r ∉ regs → t.readV r = s.readV r)
  ∧ (∀ p, p ∉ parts → p.Kept s t)
  ∧ (∀ a, a ∉ addrs → t.mem.read a = s.mem.read a)
  ∧ t.fault = s.fault ∧ t.host = s.host ∧ t.turns = s.turns

/-- The outcome with `g` applied to a next state. -/
def mapNext (g : State → State) :
    Host.Outcome State Fault Refusal → Host.Outcome State Fault Refusal
  | .next t => .next (g t)
  | .fault f => .fault f
  | .refused r => .refused r

/-! ### The invariant -/

/-- The word at `PC`, where both its bytes are in memory (R53). -/
def State.wordAtPC (s : State) : Word :=
  wordOfBytes (s.mem.read s.pc.toNat) (s.mem.read (s.pc.toNat + 1))

/-- What every step keeps: memory in its canonical form and inside the address space; `I` in 0x000
to 0xFFF (R23); `SP` at most `STACK_DEPTH` (R27); and where a wait is blocked, `PC` is at a
wait-for-key (R33). -/
structure State.Inv (s : State) : Prop where
  mem_wf : s.mem.wf = true
  idx_masked : s.idx.toNat ≤ 0x0FFF
  sp_bounded : s.sp ≤ Config.stackDepth
  waits_at_key : s.waiting = true →
    s.pc.toNat + 1 < Config.memSize ∧ ∃ x, decode s.wordAtPC = .ok (.ldVxK x)

/-! ### Sprites, pixel by pixel -/

/-- Does the sprite of `rows` drawn at `(cx, cy)` have a pixel at row `r`, column `c`? The sprite's
row there is `(r - cy) mod 32` and its pixel `(c - cx) mod 64`, pixel `j` being bit `7 - j` (R212,
R215, R216). For sprites of at most 32 rows. -/
def spritePixel (cx cy : Nat) (rows : List Byte) (r : Fin 32) (c : Fin 64) : Bool :=
  decide ((c.val + (64 - cx % 64)) % 64 < 8)
    && ((rows[(r.val + (32 - cy % 32)) % 32]?).getD 0).getLsbD (7 - (c.val + (64 - cx % 64)) % 64)

/-! ### Runs -/

/-- The run's end the spec names: "`PC` reaches a given address `E` with no fault" (R277). -/
def EndsAt (E : Word) (s : State) : Prop :=
  ∃ n t, Host.Core.run Sys2Proof.core n s = .next t ∧ t.pc = E ∧ t.fault = none

/-- A run of `n` steps with no fault, each of its states meeting the invariant. -/
def SafeRun (n : Nat) (s : State) : Prop :=
  ∀ k, k ≤ n → ∃ t : State, Host.Core.run Sys2Proof.core k s = .next t ∧ t.Inv

end Sys2Proof.Machine
end

