-- ==== Sys2Proof/Certificates/Slice0/Obligations.lean ====
section
/-! DEFINITION. The statements about the model, for the provers. A statement about an instruction says that
it completes, its result, its next `PC` and its frame: what it leaves unchanged. -/

open Sys2Proof Sys2Proof.Machine

/-! ### Encoding (spec/30_encoding.md) -/

/-- No bit of an operand is dropped: decoding a well-formed instruction's word gives it back. The bit
patterns rest on decision D5 (log 6). -/
def Obligations.DecodeOfEncode : Prop :=
  ∀ i : Instr, i.wellFormed = true → decode (encode i) = .ok i

/-- The other direction: a word that decodes is the word of the instruction it decodes to, and that
instruction is well formed (R81: "to exactly one of the 34 instructions"; log 6). -/
def Obligations.DecodedWordIsItsEncoding : Prop :=
  ∀ (w : Word) (i : Instr), decode w = .ok i → i.wellFormed = true ∧ encode i = w

/-- Every word decodes to an instruction or is `UnknownOpcode`, and the words of the second kind are
exactly those of R76 to R80 (decisions D5 to D7, log 6). -/
def Obligations.UnknownOpcodesAreExactlyTheUnassigned : Prop :=
  ∀ w : Word,
    ((∃ i, decode w = .ok i) ∨ decode w = .error (.unknownOpcode w)) ∧
    (decode w = .error (.unknownOpcode w) ↔
      (fieldO w = 0x0 ∧ w ≠ 0x00E0 ∧ w ≠ 0x00EE) ∨
      ((fieldO w = 0x5 ∨ fieldO w = 0x9) ∧ fieldN w ≠ 0) ∨
      (fieldO w = 0x8 ∧ fieldN w ∈ [0x8#4, 0x9#4, 0xA#4, 0xB#4, 0xC#4, 0xD#4, 0xF#4]) ∨
      (fieldO w = 0xE ∧ fieldKK w ∉ [0x9E#8, 0xA1#8]) ∨
      (fieldO w = 0xF ∧ fieldKK w ∉
        [0x07#8, 0x0A#8, 0x15#8, 0x18#8, 0x1E#8, 0x29#8, 0x33#8, 0x55#8, 0x65#8]))

/-- A decoded word has the fixed bits of its instruction's row of spec/opcode_table.json; and no word,
whether it decodes or not, has the fixed bits of two different rows (log 6). -/
def Obligations.OpcodeTableRowsDoNotOverlap : Prop :=
  (∀ (w : Word) (i : Instr), decode w = .ok i → w &&& (opcodeRow i).2 = (opcodeRow i).1) ∧
  (∀ (w : Word) (i j : Instr), w &&& (opcodeRow i).2 = (opcodeRow i).1 →
    w &&& (opcodeRow j).2 = (opcodeRow j).1 → opcodeRow i = opcodeRow j)

/-- An instruction stored high byte first decodes from the front of any bytes, whatever follows, and
its table word decodes to it (R53, R70; log 6). -/
def Obligations.InstructionBytesDecode : Prop :=
  ∀ (i : Instr) (rest : List Byte), i.wellFormed = true →
    decodeBytes (encodeBytes i ++ rest) = .ok (i, rest) ∧
    encodeBytes i = [BitVec.ofNat 8 ((encode i).toNat / 256), BitVec.ofNat 8 (encode i).toNat] ∧
    decodeTableWord 16 (encode i).toNat = some i

/-- A word of each family, written from the spec's layouts, decodes to its instruction (log 6). -/
def Obligations.SampleWordsDecode : Prop :=
  decode 0b0000000011100000 = .ok .cls ∧ decode 0b0000000011101110 = .ok .ret ∧
  decode 0b0010001000010000 = .ok (.call 0x210) ∧
  decode 0b0111000111111111 = .ok (.addImm 1 0xFF) ∧
  decode 0b1000101010110110 = .ok (.shr 0xA 0xB) ∧
  decode 0b1101000000010010 = .ok (.drw 0 1 2) ∧
  decode 0b1110010110100001 = .ok (.sknp 5) ∧
  decode 0b1111111101100101 = .ok (.ldVxMem 0xF) ∧
  decode 0x0000 = .error (.unknownOpcode 0x0000) ∧ decode 0x5121 = .error (.unknownOpcode 0x5121)

/-! ### Fetch, step and faults (spec/40_decode_dispatch.md, spec/60_exceptions.md) -/

/-- Fetch reads the big-endian word at `PC` and raises `MemoryOutOfBounds` where one of the two bytes is
out of range (R53). That it does so at any alignment is log 20, and which address the fault names, the
lower one, is decision D30, log 16: the model's choices. -/
def Obligations.FetchReadsBigEndianWord : Prop :=
  ∀ (σ : Type) (s : State) (k : Word → Host.Outcome σ Fault Refusal),
    (s.pc.toNat + 1 < Config.memSize → ∃ w : Word,
      w.toNat = (s.mem.read s.pc.toNat).toNat * 256 + (s.mem.read (s.pc.toNat + 1)).toNat ∧
      fetch s k = k w) ∧
    (Config.memSize ≤ s.pc.toNat → fetch s k = .fault (.memoryOutOfBounds s.pc.toNat)) ∧
    (s.pc.toNat < Config.memSize → Config.memSize ≤ s.pc.toNat + 1 →
      fetch s k = .fault (.memoryOutOfBounds (s.pc.toNat + 1)))

/-- Where the bytes at `PC` decode to an instruction, one call of `execute_one` is `exec` of it, ending
`Ok` with its next state unless it is a wait-for-key with no key pending, and a step is `exec` of it
between the two halves of the host's turn, in which one CORE step ends (R8, R100; the turn is the
model's, log 7, 8, 9). -/
def Obligations.StepRunsDecodedInstruction : Prop :=
  ∀ (s : State) (i : Instr), s.fault = none → s.pc.toNat + 1 < Config.memSize →
    decode (wordOfBytes (s.mem.read s.pc.toNat) (s.mem.read (s.pc.toNat + 1))) = .ok i →
    executeOne s = endOfCall i (exec i s) ∧ step s = finishTurn (exec i s.beginTurn) ∧
    ((∀ x, i = .ldVxK x → s.keyWait ≠ .pending) →
      (∀ t, exec i s = .next t → executeOne s = .next (.ok t)) ∧
      (∀ t, exec i s.beginTurn = .next t → okSteps 1 s = 1))

/-- The first half of the host's turn takes its ticks, each a countdown that stops at zero, from both
timers and changes nothing else; the second half moves on to the next turn and changes nothing else
(R258, decision D17; log 7 and 8). -/
def Obligations.HostTurnOnlyTicksTimers : Prop :=
  ∀ s : State,
    s.beginTurn.dt = tick^[s.hostTurn.ticks] s.dt ∧ s.beginTurn.st = tick^[s.hostTurn.ticks] s.st ∧
    s.beginTurn = { s with dt := s.beginTurn.dt, st := s.beginTurn.st } ∧
    s.endTurn = { s with host := s.host.tail, turns := s.turns + 1 } ∧
    (∀ t : Byte, (tick t).toNat = t.toNat - 1)

/-- R247 (decision D30, log 16): fetch faults come first, the byte at `PC` before the next, then
`UnknownOpcode`, then the instruction's own fault. -/
def Obligations.FaultPriorityIsFetchDecodeExecute : Prop :=
  ∀ s : State, s.fault = none →
    (Config.memSize ≤ s.pc.toNat → executeOne s = .fault (.memoryOutOfBounds s.pc.toNat)) ∧
    (s.pc.toNat < Config.memSize → Config.memSize ≤ s.pc.toNat + 1 →
      executeOne s = .fault (.memoryOutOfBounds (s.pc.toNat + 1))) ∧
    (s.pc.toNat + 1 < Config.memSize → ∀ e, decode s.wordAtPC = .error e →
      executeOne s = .fault (.unknownOpcode s.wordAtPC)) ∧
    (s.pc.toNat + 1 < Config.memSize → ∀ i f, decode s.wordAtPC = .ok i →
      exec i s = .fault f → executeOne s = .fault f)

/-- An `UnknownOpcode` word raises `UnknownOpcode` of the word, and nothing is written (R105) but
`fault`, which the model's `stateAfter` sets (decisions D12, D19; log 10, 16). -/
def Obligations.UnknownOpcodeWritesNothing : Prop :=
  ∀ s : State, s.fault = none → s.pc.toNat + 1 < Config.memSize →
    decode s.wordAtPC = .error (.unknownOpcode s.wordAtPC) →
    executeOne s = .fault (.unknownOpcode s.wordAtPC) ∧
    stateAfter s = { s with fault := some (.unknownOpcode s.wordAtPC) }

/-- R242 and R244 (decisions D12, D19; log 10, 16): a faulting call changes nothing but `fault`, and
after it there is no further step: every later call and step answers the same fault. -/
def Obligations.FaultedStateIsTerminal : Prop :=
  ∀ (s : State) (f : Fault), executeOne s = .fault f →
    (s.fault = none → stateAfter s = { s with fault := some f }) ∧
    executeOne (stateAfter s) = .fault f ∧ step (stateAfter s) = .fault f ∧
    stateAfter (stateAfter s) = stateAfter s

/-- Which instructions raise which fault: no other can, and all others complete; and each fault is raised
by its instructions in a state that meets the invariant (R241). The model's choices: that an `I` of at
most 0xFFF can be out of range rests on the 4096 bytes of memory (log 1), that every host error can come
on the host's turns (log 7), and what a fault carries on decision D30 (log 16). -/
def Obligations.OnlyListedInstructionsFault : Prop :=
  (∀ (i : Instr) (s : State) (f : Fault), exec i s = .fault f →
    (∃ a, f = .memoryOutOfBounds a ∧
      ((∃ x y n, i = .drw x y n) ∨ (∃ x, i = .ldB x ∨ i = .ldMemVx x ∨ i = .ldVxMem x))) ∨
    (∃ nnn, f = .stackOverflow s.pc ∧ i = .call nnn) ∨
    (f = .stackUnderflow s.pc ∧ i = .ret) ∨
    (∃ e x, f = .inputSourceError e ∧ i = .ldVxK x)) ∧
  (∀ (i : Instr) (s : State), (∀ x y n, i ≠ .drw x y n) →
    (∀ x, i ≠ .ldB x ∧ i ≠ .ldMemVx x ∧ i ≠ .ldVxMem x ∧ i ≠ .ldVxK x) →
    (∀ nnn, i ≠ .call nnn) → i ≠ .ret → ∃ t, exec i s = .next t) ∧
  (∀ (s : State) (f : Fault), s.fault = none → executeOne s = .fault f →
    (∃ a, f = .memoryOutOfBounds a ∧ Config.memSize ≤ s.pc.toNat + 1) ∨
    (f = .unknownOpcode s.wordAtPC ∧ ∀ i, decode s.wordAtPC ≠ .ok i) ∨
    (∃ i, decode s.wordAtPC = .ok i ∧ exec i s = .fault f)) ∧
  (∃ s : State, s.Inv ∧ ∀ x y : Reg, ∃ a, exec (.drw x y 2) s = .fault (.memoryOutOfBounds a) ∧
    exec (.ldB x) s = .fault (.memoryOutOfBounds a) ∧
    exec (.ldMemVx 1) s = .fault (.memoryOutOfBounds a) ∧
    exec (.ldVxMem 1) s = .fault (.memoryOutOfBounds a)) ∧
  (∃ s : State, s.Inv ∧ ∀ nnn, exec (.call nnn) s = .fault (.stackOverflow s.pc)) ∧
  (∃ s : State, s.Inv ∧ exec .ret s = .fault (.stackUnderflow s.pc)) ∧
  (∀ e, ∃ s : State, s.Inv ∧ ∀ x, exec (.ldVxK x) s = .fault (.inputSourceError e))

/-- Every instruction has its meaning: neither `exec` nor a call nor a step ever refuses, so a call ends
in `Ok`, `Fault` or `Blocked` (R8). -/
def Obligations.NothingIsRefused : Prop :=
  (∀ (i : Instr) (s : State) (r : Refusal), exec i s ≠ .refused r) ∧
  (∀ (s : State) (r : Refusal), executeOne s ≠ .refused r ∧ step s ≠ .refused r)

/-- The word placed by the host's check is the one the next step runs (log 13). -/
def Obligations.WithFetchWordRunsTheWord : Prop :=
  ∀ (s : State) (i : Instr), s.fault = none → s.mem.wf = true → s.pc.toNat + 1 < Config.memSize →
    i.wellFormed = true →
    step (s.withFetchWord 16 (encode i).toNat)
      = finishTurn (exec i (s.withFetchWord 16 (encode i).toNat).beginTurn) ∧
    Frame [] [] [s.pc.toNat, s.pc.toNat + 1] s (s.withFetchWord 16 (encode i).toNat) ∧
    (s.withFetchWord 16 (encode i).toNat).pc = s.pc

/-! ### Reset, invariant, memory -/

/-- The reset values of R35 and R270; `FONT` and `PROG_BASE` are parameters (log 2, 4). -/
def Obligations.ResetValues : Prop :=
  (∀ r, State.reset.readV r = 0) ∧ State.reset.idx = 0 ∧ State.reset.pc = Config.progBase ∧
  State.reset.sp = 0 ∧ State.reset.stack = [] ∧ State.reset.dt = 0 ∧ State.reset.st = 0 ∧
  (∀ r, State.reset.disp.row r = 0) ∧ State.reset.fault = none ∧
  (∀ a, a < 80 → Config.font[a]? = some (State.reset.mem.read a)) ∧
  (∀ a, 80 ≤ a → State.reset.mem.read a = 0)

/-- The invariant holds at reset. -/
def Obligations.ResetMeetsInvariant : Prop := State.reset.Inv

/-- Every step keeps the invariant, from every state that meets it: memory stays in its canonical form
and inside the address space, `I` stays in 0x000 to 0xFFF (R23), `SP` at most `STACK_DEPTH` (R27), and
a blocked wait stays at a wait-for-key (R33). -/
def Obligations.StepKeepsInvariant : Prop :=
  ∀ s t : State, s.Inv → step s = .next t → t.Inv

/-- The canonical form is one: memories that read the same are the same data. -/
def Obligations.CanonicalMemoryIsDetermined : Prop :=
  ∀ m m' : Memory, m.wf = true → m'.wf = true → (∀ a, m.read a = m'.read a) → m = m'

/-- The loader writes the image at `PROG_BASE` onward and nothing else (R257; log 13). -/
def Obligations.LoaderWritesTheImage : Prop :=
  ∀ (s : State) (image : List Byte), s.mem.wf = true →
    Config.progBase.toNat + image.length ≤ Config.memSize →
    (∀ (k : Nat) (b : Byte), image[k]? = some b →
      (s.load image).mem.read (Config.progBase.toNat + k) = b) ∧
    Frame [] [] (List.range' Config.progBase.toNat image.length) s (s.load image) ∧
    (s.load image).pc = s.pc ∧ (s.load image).mem.wf = true

/-- A store is seen by the next fetch: storing `V0`, `V1` over the next instruction makes them its
word (R62). -/
def Obligations.StoredInstructionIsFetched : Prop :=
  ∀ (s : State) (k : Word → Host.Outcome State Fault Refusal), s.mem.wf = true →
    s.idx.toNat = s.pc.toNat + 2 → s.pc.toNat + 3 < Config.memSize →
    ∃ t, exec (.ldMemVx 1) s = .next t ∧ fetch t k = k (wordOfBytes (s.readV 0) (s.readV 1))

/-! ### Rules about the whole machine -/

/-- Only LD B and LD [I] write memory (R51). -/
def Obligations.OnlyStoresChangeMemory : Prop :=
  ∀ (i : Instr) (s t : State), exec i s = .next t → t.mem ≠ s.mem →
    ∃ x, i = .ldB x ∨ i = .ldMemVx x

/-- Only CLS and DRW write the display (R30). -/
def Obligations.OnlyClearAndDrawChangeDisplay : Prop :=
  ∀ (i : Instr) (s t : State), exec i s = .next t → t.disp ≠ s.disp →
    i = .cls ∨ ∃ x y n, i = .drw x y n

/-- Only CALL and RET touch the call stack (R27). -/
def Obligations.OnlyCallAndReturnTouchStack : Prop :=
  ∀ (i : Instr) (s t : State), exec i s = .next t → t.stack ≠ s.stack →
    i = .ret ∨ ∃ nnn, i = .call nnn

/-- `I` is written by LD I, ADD I and LD F alone, and each leaves it in 0x000 to 0xFFF (R23). -/
def Obligations.IndexWrittenMaskedByThree : Prop :=
  ∀ (i : Instr) (s t : State), exec i s = .next t →
    ((∃ nnn, i = .ldI nnn) ∨ (∃ x, i = .addI x ∨ i = .ldF x) → t.idx.toNat ≤ 0x0FFF) ∧
    (t.idx ≠ s.idx → (∃ nnn, i = .ldI nnn) ∨ ∃ x, i = .addI x ∨ i = .ldF x)

/-- `DT` is written by LD DT alone and `ST` by LD ST alone; no instruction touches `fault` or the
host's turns; only LD Vx, K notes a wait (R29, R33, R34). -/
def Obligations.TimersWrittenOnlyBySetTimer : Prop :=
  ∀ (i : Instr) (s t : State), exec i s = .next t →
    (t.dt ≠ s.dt → ∃ x, i = .ldDTVx x) ∧ (t.st ≠ s.st → ∃ x, i = .ldSTVx x) ∧
    (t.waiting ≠ s.waiting → ∃ x, i = .ldVxK x) ∧
    t.fault = s.fault ∧ t.host = s.host ∧ t.turns = s.turns

/-- `VF` is written implicitly by add, subtract, reverse subtract, the shifts and draw; any other
instruction that changes it names it as its destination (R21, R22). -/
def Obligations.FlagRegisterWrittenOnlyAsListed : Prop :=
  ∀ (i : Instr) (s t : State), exec i s = .next t → t.readV VF ≠ s.readV VF →
    (∃ x y, i = .addReg x y ∨ i = .sub x y ∨ i = .subn x y ∨ i = .shr x y ∨ i = .shl x y) ∨
    (∃ x y n, i = .drw x y n) ∨
    (∃ kk, i = .ldImm VF kk ∨ i = .addImm VF kk ∨ i = .rnd VF kk) ∨
    (∃ y, i = .ldReg VF y ∨ i = .orReg VF y ∨ i = .andReg VF y ∨ i = .xorReg VF y) ∨
    i = .ldVxDT VF ∨ i = .ldVxK VF ∨ i = .ldVxMem VF

/-- The next `PC` of every instruction, and of a call that faults (R104). Sums are modulo 2^16 (R26). The
model's choices: the jump-indirect sum is not masked (decision D10, log 14), a blocked wait is shown as a
next state with `PC` kept (log 9), a faulting call keeps `PC` (decision D12, log 16). -/
def Obligations.NextProgramCounter : Prop :=
  (∀ (i : Instr) (s t : State), exec i s = .next t →
    match i with
    | .jp nnn | .call nnn => t.pc.toNat = nnn.toNat
    | .jpV0 nnn => t.pc.toNat = (nnn.toNat + (s.readV 0).toNat) % 65536
    | .ret => s.stack.head? = some t.pc
    | .seImm x kk => t.pc = if s.readV x = kk then s.pc + 4 else s.pc + 2
    | .sneImm x kk => t.pc = if s.readV x ≠ kk then s.pc + 4 else s.pc + 2
    | .seReg x y => t.pc = if s.readV x = s.readV y then s.pc + 4 else s.pc + 2
    | .sneReg x y => t.pc = if s.readV x ≠ s.readV y then s.pc + 4 else s.pc + 2
    | .skp x => t.pc = if s.keyHeld (s.readV x) = true then s.pc + 4 else s.pc + 2
    | .sknp x => t.pc = if s.keyHeld (s.readV x) = true then s.pc + 2 else s.pc + 4
    | .ldVxK _ => t.pc = if s.keyWait = .pending then s.pc else s.pc + 2
    | .cls | .ldImm _ _ | .addImm _ _ | .ldReg _ _ | .orReg _ _ | .andReg _ _ | .xorReg _ _
    | .addReg _ _ | .sub _ _ | .shr _ _ | .subn _ _ | .shl _ _ | .ldI _ | .rnd _ _ | .drw _ _ _
    | .ldVxDT _ | .ldDTVx _ | .ldSTVx _ | .addI _ | .ldF _ | .ldB _ | .ldMemVx _ | .ldVxMem _ =>
      t.pc = s.pc + 2) ∧
  (∀ (s : State) (f : Fault), executeOne s = .fault f → (stateAfter s).pc = s.pc)

/-- Nothing a run does depends on `ST`: two runs that start from states differing only in `ST` end the
same way, and where they end in a state, in states that differ at most in `ST` (R29: no instruction
reads `ST`, and the CORE gives it no effect). -/
def Obligations.SoundTimerHasNoEffect : Prop :=
  ∀ (n : Nat) (s : State) (b : Byte),
    mapNext (fun t => { t with st := 0 }) (Host.Core.run Sys2Proof.core n { s with st := b })
      = mapNext (fun t => { t with st := 0 }) (Host.Core.run Sys2Proof.core n s)

/-- Only LD Vx, DT reads `DT`: every other instruction does the same to states that differ only in
`DT`, and leaves their difference as it is, but for LD DT, which overwrites it (R29). -/
def Obligations.DelayTimerReadOnlyByGetTimer : Prop :=
  ∀ (i : Instr) (s : State) (b : Byte), (∀ x, i ≠ .ldVxDT x) →
    ((∀ x, i ≠ .ldDTVx x) →
      exec i { s with dt := b } = mapNext (fun t => { t with dt := b }) (exec i s)) ∧
    ((∃ x, i = .ldDTVx x) → exec i { s with dt := b } = exec i s)

/-! ### ALU and register moves (spec/42_alu.md) -/

/-- R141, R142. -/
def Obligations.ImmediateMoveAndAdd : Prop :=
  ∀ (x : Reg) (kk : Byte) (s : State),
    (∃ t, exec (.ldImm x kk) s = .next t ∧ t.readV x = kk ∧ t.pc = s.pc + 2 ∧
      Frame [x] [] [] s t) ∧
    (∃ t, exec (.addImm x kk) s = .next t ∧
      (t.readV x).toNat = ((s.readV x).toNat + kk.toNat) % 256 ∧ t.pc = s.pc + 2 ∧
      Frame [x] [] [] s t)

/-- R143 to R146: bit by bit, and no flag. -/
def Obligations.RegisterMoveAndLogic : Prop :=
  ∀ (x y : Reg) (s : State),
    (∃ t, exec (.ldReg x y) s = .next t ∧ t.readV x = s.readV y ∧ t.pc = s.pc + 2 ∧
      Frame [x] [] [] s t) ∧
    (∃ t, exec (.orReg x y) s = .next t ∧
      (∀ j, (t.readV x).getLsbD j = ((s.readV x).getLsbD j || (s.readV y).getLsbD j)) ∧
      t.pc = s.pc + 2 ∧ Frame [x] [] [] s t) ∧
    (∃ t, exec (.andReg x y) s = .next t ∧
      (∀ j, (t.readV x).getLsbD j = ((s.readV x).getLsbD j && (s.readV y).getLsbD j)) ∧
      t.pc = s.pc + 2 ∧ Frame [x] [] [] s t) ∧
    (∃ t, exec (.xorReg x y) s = .next t ∧
      (∀ j, (t.readV x).getLsbD j = ((s.readV x).getLsbD j ^^ (s.readV y).getLsbD j)) ∧
      t.pc = s.pc + 2 ∧ Frame [x] [] [] s t)

/-- The sum and the carry (R147). Where `x` is `F`, `VF` is the carry, not the sum: decision D9, log
15. -/
def Obligations.AddSetsCarry : Prop :=
  ∀ (x y : Reg) (s : State), ∃ t, exec (.addReg x y) s = .next t ∧
    (x ≠ VF → (t.readV x).toNat = ((s.readV x).toNat + (s.readV y).toNat) % 256) ∧
    t.readV VF = (if (s.readV x).toNat + (s.readV y).toNat > 255 then 1 else 0) ∧
    t.pc = s.pc + 2 ∧ Frame [x, VF] [] [] s t

/-- The difference and not-borrow (R148). Where `x` is `F`, `VF` is the flag: decision D9, log 15. -/
def Obligations.SubtractSetsNotBorrow : Prop :=
  ∀ (x y : Reg) (s : State), ∃ t, exec (.sub x y) s = .next t ∧
    (x ≠ VF → (t.readV x).toNat = ((s.readV x).toNat + 256 - (s.readV y).toNat) % 256) ∧
    t.readV VF = (if (s.readV y).toNat > (s.readV x).toNat then 0 else 1) ∧
    t.pc = s.pc + 2 ∧ Frame [x, VF] [] [] s t

/-- The reverse difference and not-borrow (R149). Where `x` is `F`, `VF` is the flag: decision D9, log
15. -/
def Obligations.ReverseSubtractSetsNotBorrow : Prop :=
  ∀ (x y : Reg) (s : State), ∃ t, exec (.subn x y) s = .next t ∧
    (x ≠ VF → (t.readV x).toNat = ((s.readV y).toNat + 256 - (s.readV x).toNat) % 256) ∧
    t.readV VF = (if (s.readV x).toNat > (s.readV y).toNat then 0 else 1) ∧
    t.pc = s.pc + 2 ∧ Frame [x, VF] [] [] s t

/-- R150, R151, with decision D8 (log 6): the result does not depend on `y`, and `V[y]` is unchanged
unless it is `V[x]` or `VF`. Where `x` is `F`, `VF` is the bit shifted out: decision D9, log 15. And "a
decoder accepts any `y`" for the two shifts (R83; log 6, 21). -/
def Obligations.ShiftsMoveOneBitOut : Prop :=
  ∀ (x y : Reg) (s : State),
    (∃ t, exec (.shr x y) s = .next t ∧ (x ≠ VF → (t.readV x).toNat = (s.readV x).toNat / 2) ∧
      (t.readV VF).toNat = (s.readV x).toNat % 2 ∧ t.pc = s.pc + 2 ∧ Frame [x, VF] [] [] s t) ∧
    (∃ t, exec (.shl x y) s = .next t ∧
      (x ≠ VF → (t.readV x).toNat = (s.readV x).toNat * 2 % 256) ∧
      (t.readV VF).toNat = (s.readV x).toNat / 128 ∧ t.pc = s.pc + 2 ∧ Frame [x, VF] [] [] s t) ∧
    (∀ y' : Reg, exec (.shr x y') s = exec (.shr x y) s ∧ exec (.shl x y') s = exec (.shl x y) s) ∧
    (∀ w : Word, fieldO w = 0x8 →
      (fieldN w = 0x6 → decode w = .ok (.shr (fieldX w) (fieldY w))) ∧
      (fieldN w = 0xE → decode w = .ok (.shl (fieldX w) (fieldY w))))

/-- R152 (decision D16, log 7): the register is the host's byte under the mask, and every byte is one
the host may give. -/
def Obligations.RandomByteIsMasked : Prop :=
  ∀ (x : Reg) (kk : Byte) (s : State),
    (∃ t, exec (.rnd x kk) s = .next t ∧
      (∀ j, (t.readV x).getLsbD j = (s.randByte.getLsbD j && kk.getLsbD j)) ∧ t.pc = s.pc + 2 ∧
      Frame [x] [] [] s t) ∧
    (∀ r : Byte, ∃ (h : List HostTurn) (t : State),
      exec (.rnd x kk) { s with host := h } = .next t ∧ t.readV x = r &&& kk)

/-! ### Control transfer (spec/41_control_flow.md) -/

/-- R121. -/
def Obligations.JumpSetsProgramCounter : Prop :=
  ∀ (nnn : BitVec 12) (s : State), ∃ t, exec (.jp nnn) s = .next t ∧
    t.pc.toNat = nnn.toNat ∧ Frame [] [] [] s t

/-- R127, with decision D10 (log 14): the sum is not masked to 12 bits, and no register but `V0`
matters. -/
def Obligations.JumpIndirectAddsV0 : Prop :=
  ∀ (nnn : BitVec 12) (s : State), ∃ t, exec (.jpV0 nnn) s = .next t ∧
    t.pc.toNat = nnn.toNat + (s.readV 0).toNat ∧ Frame [] [] [] s t

/-- A call pushes `P + 2` and jumps; with a full stack it raises `StackOverflow` (R122). That the fault
carries the address of the call is decision D30, log 16. -/
def Obligations.CallPushesReturnAddress : Prop :=
  ∀ (nnn : BitVec 12) (s : State),
    (s.sp < Config.stackDepth → ∃ t, exec (.call nnn) s = .next t ∧
      t.sp = s.sp + 1 ∧ t.stackEntry s.sp = some (s.pc + 2) ∧
      (∀ n, n < s.sp → t.stackEntry n = s.stackEntry n) ∧
      t.pc.toNat = nnn.toNat ∧ Frame [] [.stack] [] s t) ∧
    (s.sp = Config.stackDepth → exec (.call nnn) s = .fault (.stackOverflow s.pc))

/-- A return pops the top entry into `PC` as it is; with an empty stack it raises `StackUnderflow` (R120).
That the fault carries the address of the return is decision D30, log 16. -/
def Obligations.ReturnPopsProgramCounter : Prop :=
  ∀ s : State,
    (∀ n, s.sp = n + 1 → ∃ t, exec .ret s = .next t ∧ t.sp = n ∧ s.stackEntry n = some t.pc ∧
      (∀ m, m < n → t.stackEntry m = s.stackEntry m) ∧ Frame [] [.stack] [] s t) ∧
    (s.sp = 0 → exec .ret s = .fault (.stackUnderflow s.pc))

/-- The round trip of spec/95_test_vectors.md S8: from any state the callee may have left, so long as
the stack is as the call left it, a return restores `P + 2` and the stack. -/
def Obligations.CallThenReturnRestores : Prop :=
  ∀ (nnn : BitVec 12) (s t u : State), exec (.call nnn) s = .next t → u.stack = t.stack →
    ∃ w, exec .ret u = .next w ∧ w.pc = s.pc + 2 ∧ w.stack = s.stack

/-- R123 to R126: skips advance by 4 where the condition holds and by 2 otherwise, and change nothing
else. -/
def Obligations.SkipsCompare : Prop :=
  ∀ (x y : Reg) (kk : Byte) (s : State),
    (∃ t, exec (.seImm x kk) s = .next t ∧ Frame [] [] [] s t ∧
      t.pc = if s.readV x = kk then s.pc + 4 else s.pc + 2) ∧
    (∃ t, exec (.sneImm x kk) s = .next t ∧ Frame [] [] [] s t ∧
      t.pc = if s.readV x = kk then s.pc + 2 else s.pc + 4) ∧
    (∃ t, exec (.seReg x y) s = .next t ∧ Frame [] [] [] s t ∧
      t.pc = if s.readV x = s.readV y then s.pc + 4 else s.pc + 2) ∧
    (∃ t, exec (.sneReg x y) s = .next t ∧ Frame [] [] [] s t ∧
      t.pc = if s.readV x = s.readV y then s.pc + 2 else s.pc + 4)

/-- R121: a jump to itself loops forever with no fault, and changes no register, memory, display or
stack. -/
def Obligations.JumpToItselfNeverEnds : Prop :=
  ∀ (n : Nat) (nnn : BitVec 12) (s : State), s.fault = none → s.pc.toNat + 1 < Config.memSize →
    decode s.wordAtPC = .ok (.jp nnn) → s.pc.toNat = nnn.toNat →
    ∃ t : State, Host.Core.run Sys2Proof.core n s = .next t ∧ t.pc = s.pc ∧ t.v = s.v ∧
      t.idx = s.idx ∧ t.stack = s.stack ∧ t.disp = s.disp ∧ t.mem = s.mem ∧ t.fault = none

/-! ### Index register and memory transfers (spec/43_index_memory.md) -/

/-- R170 to R172. -/
def Obligations.IndexOperations : Prop :=
  ∀ (nnn : BitVec 12) (x : Reg) (s : State),
    (∃ t, exec (.ldI nnn) s = .next t ∧ t.idx.toNat = nnn.toNat ∧ t.pc = s.pc + 2 ∧
      Frame [] [.idx] [] s t) ∧
    (∃ t, exec (.addI x) s = .next t ∧
      t.idx.toNat = (s.idx.toNat + (s.readV x).toNat) % 4096 ∧ t.pc = s.pc + 2 ∧
      Frame [] [.idx] [] s t) ∧
    (∃ t, exec (.ldF x) s = .next t ∧ t.idx.toNat = (s.readV x).toNat % 16 * 5 ∧
      t.pc = s.pc + 2 ∧ Frame [] [.idx] [] s t)

/-- The three digits at `I`, `I + 1`, `I + 2`, or `MemoryOutOfBounds` of the lowest address out of range
(R173). The fault, which address it names and that it comes before any write, is decisions D12 and D30,
log 16. -/
def Obligations.BcdStoresThreeDigits : Prop :=
  ∀ (x : Reg) (s : State), s.mem.wf = true →
    (dataAddr s 2 < Config.memSize → ∃ t, exec (.ldB x) s = .next t ∧
      (t.mem.read (dataAddr s 0)).toNat = (s.readV x).toNat / 100 ∧
      (t.mem.read (dataAddr s 1)).toNat = (s.readV x).toNat / 10 % 10 ∧
      (t.mem.read (dataAddr s 2)).toNat = (s.readV x).toNat % 10 ∧
      t.pc = s.pc + 2 ∧ Frame [] [] (List.range' (dataAddr s 0) 3) s t) ∧
    (∀ a, a ∈ List.range' (dataAddr s 0) 3 → Config.memSize ≤ a →
      (∀ b ∈ List.range' (dataAddr s 0) 3, b < a → b < Config.memSize) →
      exec (.ldB x) s = .fault (.memoryOutOfBounds a))

/-- `V0` to `Vx` at `I` onward, or `MemoryOutOfBounds` of the lowest address out of range (R174). The
fault, which address it names and that it comes before any write, is decisions D12 and D30, log 16. -/
def Obligations.StoreRegistersCopiesUpToX : Prop :=
  ∀ (x : Reg) (s : State), s.mem.wf = true →
    (dataAddr s x.val < Config.memSize → ∃ t, exec (.ldMemVx x) s = .next t ∧
      (∀ k, k ≤ x → t.mem.read (dataAddr s k.val) = s.readV k) ∧
      t.pc = s.pc + 2 ∧ Frame [] [] (List.range' (dataAddr s 0) (x.val + 1)) s t) ∧
    (∀ a, a ∈ List.range' (dataAddr s 0) (x.val + 1) → Config.memSize ≤ a →
      (∀ b ∈ List.range' (dataAddr s 0) (x.val + 1), b < a → b < Config.memSize) →
      exec (.ldMemVx x) s = .fault (.memoryOutOfBounds a))

/-- `V0` to `Vx` from `I` onward and no other register, or `MemoryOutOfBounds` of the lowest address out
of range (R175). Which address the fault names is decision D30, log 16. -/
def Obligations.LoadRegistersCopiesUpToX : Prop :=
  ∀ (x : Reg) (s : State),
    (dataAddr s x.val < Config.memSize → ∃ t, exec (.ldVxMem x) s = .next t ∧
      (∀ k, k ≤ x → t.readV k = s.mem.read (dataAddr s k.val)) ∧
      t.pc = s.pc + 2 ∧ Frame ((List.finRange 16).filter (· ≤ x)) [] [] s t) ∧
    (∀ a, a ∈ List.range' (dataAddr s 0) (x.val + 1) → Config.memSize ≤ a →
      (∀ b ∈ List.range' (dataAddr s 0) (x.val + 1), b < a → b < Config.memSize) →
      exec (.ldVxMem x) s = .fault (.memoryOutOfBounds a))

/-- Registers stored are registers loaded: after LD [I], Vx, a LD Vx, [I] from any state with that
memory and index gives back the stored registers ("inverse copy", R175). -/
def Obligations.StoreThenLoadRestoresRegisters : Prop :=
  ∀ (x : Reg) (s t u : State), s.mem.wf = true → exec (.ldMemVx x) s = .next t →
    u.mem = t.mem → u.idx = t.idx →
    ∃ w, exec (.ldVxMem x) u = .next w ∧ (∀ k, k ≤ x → w.readV k = s.readV k) ∧
      (∀ k, x < k → w.readV k = u.readV k)

/-! ### Key input and timers (spec/44_io_timers.md) -/

/-- R190, R191 (decision D14, log 7): the host's answer about code `V[x]`, all 8 bits, decides the skip,
and both answers are ones it may give. -/
def Obligations.KeySkipsFollowTheHost : Prop :=
  ∀ (x : Reg) (s : State),
    (∃ t, exec (.skp x) s = .next t ∧ Frame [] [] [] s t ∧
      t.pc = if s.hostTurn.held.getLsbD (s.readV x).toNat = true then s.pc + 4 else s.pc + 2) ∧
    (∃ t, exec (.sknp x) s = .next t ∧ Frame [] [] [] s t ∧
      t.pc = if s.hostTurn.held.getLsbD (s.readV x).toNat = true then s.pc + 2 else s.pc + 4) ∧
    (∀ answer : Bool, ∃ h : List HostTurn,
      State.keyHeld { s with host := h } (s.readV x) = answer)

/-- R192, R194, R195. -/
def Obligations.TimerAccess : Prop :=
  ∀ (x : Reg) (s : State),
    (∃ t, exec (.ldVxDT x) s = .next t ∧ t.readV x = s.dt ∧ t.pc = s.pc + 2 ∧
      Frame [x] [] [] s t) ∧
    (∃ t, exec (.ldDTVx x) s = .next t ∧ t.dt = s.readV x ∧ t.pc = s.pc + 2 ∧
      Frame [] [.dt] [] s t) ∧
    (∃ t, exec (.ldSTVx x) s = .next t ∧ t.st = s.readV x ∧ t.pc = s.pc + 2 ∧
      Frame [] [.st] [] s t)

/-- R193: where the host gives a key of `KEY_CODES`, it is stored and the wait is over (log 5, 7, 9). -/
def Obligations.WaitForKeyStoresTheKey : Prop :=
  ∀ (x : Reg) (s : State) (k : Byte), s.hostTurn.keyWait = .key k → k.toNat ≤ 0x0F →
    ∃ t, exec (.ldVxK x) s = .next t ∧ t.readV x = k ∧ t.waiting = false ∧ t.pc = s.pc + 2 ∧
      Frame [x] [.waiting] [] s t

/-- R193: a failed read raises `InputSourceError` with the host's value; while no key is pending the call
is blocked: no CORE state changes and `PC` stays (log 7, 9). And R8: the outcome `Blocked` "happens only
for wait-for-key while the key-state source has no key pending", and then always. -/
def Obligations.WaitForKeyErrorsAndBlocks : Prop :=
  ∀ (x : Reg) (s : State),
    (∀ e, s.hostTurn.keyWait = .error e → exec (.ldVxK x) s = .fault (.inputSourceError e)) ∧
    (s.hostTurn.keyWait = .pending →
      ∃ t, exec (.ldVxK x) s = .next t ∧ t.waiting = true ∧ t.pc = s.pc ∧
        Frame [] [.waiting] [] s t) ∧
    (executeOne s = .next .blocked ↔ s.fault = none ∧ s.pc.toNat + 1 < Config.memSize ∧
      (∃ y, decode s.wordAtPC = .ok (.ldVxK y)) ∧ s.keyWait = .pending)

/-- Only codes of `KEY_CODES` reach a register through LD Vx, K, whatever the host does (R193, R260;
log 5). -/
def Obligations.OnlyKeyCodesAreStored : Prop :=
  ∀ (x : Reg) (s t : State), exec (.ldVxK x) s = .next t → t.waiting = false →
    (t.readV x).toNat ≤ 0x0F ∧ ∃ k, s.hostTurn.keyWait = .key k ∧ t.readV x = k

/-- "The core has no internal timeout" (R253): for as many turns as the host has no key, the CORE
stays at the wait-for-key and changes nothing but what the ticker does to the timers (log 9), and no CORE
step is taken: "`Blocked` is not a step" (R8). -/
def Obligations.BlockedWaitHasNoTimeout : Prop :=
  ∀ (n : Nat) (x : Reg) (s : State), s.fault = none → s.pc.toNat + 1 < Config.memSize →
    decode s.wordAtPC = .ok (.ldVxK x) → n ≤ s.host.length →
    (∀ h ∈ s.host.take n, h.keyWait = .pending) →
    okSteps n s = 0 ∧
    ∃ t : State, Host.Core.run Sys2Proof.core n s = .next t ∧ t.pc = s.pc ∧ t.v = s.v ∧
      t.idx = s.idx ∧ t.stack = s.stack ∧ t.disp = s.disp ∧ t.mem = s.mem ∧ t.fault = none ∧
      t.host = s.host.drop n ∧
      t.dt.toNat = s.dt.toNat - ((s.host.take n).map HostTurn.ticks).sum

/-! ### Display (spec/45_display.md) -/

/-- R210. -/
def Obligations.ClearScreenZeroesDisplay : Prop :=
  ∀ s : State, ∃ t, exec .cls s = .next t ∧ (∀ r, t.disp.row r = 0) ∧ t.pc = s.pc + 2 ∧
    Frame [] [.disp] [] s t

/-- R211 to R217 (decisions D13, D24, D27; log 15, 17, 18): a draw flips exactly the sprite's pixels,
wrapped at both edges; `VF` says whether one of them was on; a draw of no row changes only `VF` and
`PC`. -/
def Obligations.DrawFlipsExactlyTheSpritesPixels : Prop :=
  ∀ (x y : Reg) (n : Nat) (s : State), n ≤ 15 →
    (n = 0 ∨ dataAddr s 0 + n ≤ Config.memSize) →
    ∃ t, exec (.drw x y n) s = .next t ∧
      (∀ (r : Fin 32) (c : Fin 64), (t.disp.row r).getLsbD c =
        ((s.disp.row r).getLsbD c ^^ spritePixel (s.readV x).toNat (s.readV y).toNat
          ((List.range n).map fun k => s.mem.read (dataAddr s k)) r c)) ∧
      ((t.readV VF = 1 ∧ ∃ (r : Fin 32) (c : Fin 64), (s.disp.row r).getLsbD c = true ∧
        spritePixel (s.readV x).toNat (s.readV y).toNat
          ((List.range n).map fun k => s.mem.read (dataAddr s k)) r c = true) ∨
      (t.readV VF = 0 ∧ ∀ (r : Fin 32) (c : Fin 64), (s.disp.row r).getLsbD c = true →
        spritePixel (s.readV x).toNat (s.readV y).toNat
          ((List.range n).map fun k => s.mem.read (dataAddr s k)) r c = false)) ∧
      t.pc = s.pc + 2 ∧ Frame [VF] [.disp] [] s t

/-- R211 (decision D30, log 16): a sprite row out of range raises `MemoryOutOfBounds` of the lowest such
address. -/
def Obligations.DrawOutOfRangeFaults : Prop :=
  ∀ (x y : Reg) (n : Nat) (s : State) (a : Nat), a ∈ List.range' (dataAddr s 0) n →
    Config.memSize ≤ a → (∀ b ∈ List.range' (dataAddr s 0) n, b < a → b < Config.memSize) →
    exec (.drw x y n) s = .fault (.memoryOutOfBounds a)

/-- R218, the XOR self-inverse property: drawing a sprite twice at one place restores the display, and
on a clear display the second draw collides exactly when the sprite has a set bit, the first never
(log 17 for the pixel order, on which nothing here depends). -/
def Obligations.DrawTwiceRestoresDisplay : Prop :=
  ∀ (d : Display) (cx cy : Nat) (rows : List Byte), rows.length ≤ 15 →
    (compositeSprite (compositeSprite d cx cy rows).1 cx cy rows).1 = d ∧
    (compositeSprite Display.clear cx cy rows).2 = false ∧
    ((compositeSprite (compositeSprite Display.clear cx cy rows).1 cx cy rows).2 = true ↔
      ∃ b ∈ rows, b ≠ 0)

/-- R216 and R218 (decision D13, log 17): one sprite row on a clear display lights, on its row alone, as
many pixels as the byte has set bits, none lost at the edge; at columns up to 56 they are the byte's
bits in reverse order from column `cx` on. -/
def Obligations.SpriteRowWrapsWithoutLoss : Prop :=
  ∀ (b : Byte) (cx cy : Nat),
    (∀ r : Fin 32, r.val ≠ cy % 32 →
      ((compositeSprite Display.clear cx cy [b]).1).row r = 0) ∧
    (∀ r : Fin 32, r.val = cy % 32 →
      (List.range 64).countP (((compositeSprite Display.clear cx cy [b]).1).row r).getLsbD
        = (List.range 8).countP b.getLsbD ∧
      (cx % 64 ≤ 56 → ((compositeSprite Display.clear cx cy [b]).1).row r
        = b.reverse.setWidth 64 <<< (cx % 64)))
end

