-- ==== Sys2Proof/Machine/Assembler.lean ====
section
/-! DEFINITION. The assembler syntax (spec/30_encoding.md R83, R84): an instruction's line, the line's
text, and the instruction a line assembles to. PRESUMED (log 21): the conventional mnemonics, the spec's
decision D22. It has no effect on the machine. -/

namespace Sys2Proof.Machine

/-- The mnemonics (R83). -/
inductive Mnemonic where
  | cls | ret | jp | call | se | sne | ld | add | or | and | xor | sub | shr | subn | shl | rnd
  | drw | skp | sknp
  deriving DecidableEq, Repr

/-- The operands of a line (R83). -/
inductive AsmOperand where
  /-- `V0` to `VF` -/
  | v (r : Reg)
  /-- `nnn` -/
  | addr (nnn : BitVec 12)
  /-- `kk` -/
  | byte (kk : Byte)
  /-- `n` -/
  | count (n : Nat)
  /-- `I` -/
  | i
  /-- `DT` -/
  | dt
  /-- `ST` -/
  | st
  /-- `K` -/
  | k
  /-- `F` -/
  | f
  /-- `B` -/
  | b
  /-- `[I]` -/
  | memI
  deriving DecidableEq, Repr

/-- A line: a mnemonic and its operands, "written destination first" (R83). -/
structure AsmLine where
  mnemonic : Mnemonic
  operands : List AsmOperand
  deriving DecidableEq, Repr

/-- The line of an instruction, row by row of R83's table. The shifts name `Vx` alone. -/
def asmLine : Instr → AsmLine
  | .cls => ⟨.cls, []⟩
  | .ret => ⟨.ret, []⟩
  | .jp nnn => ⟨.jp, [.addr nnn]⟩
  | .call nnn => ⟨.call, [.addr nnn]⟩
  | .seImm x kk => ⟨.se, [.v x, .byte kk]⟩
  | .sneImm x kk => ⟨.sne, [.v x, .byte kk]⟩
  | .seReg x y => ⟨.se, [.v x, .v y]⟩
  | .ldImm x kk => ⟨.ld, [.v x, .byte kk]⟩
  | .addImm x kk => ⟨.add, [.v x, .byte kk]⟩
  | .ldReg x y => ⟨.ld, [.v x, .v y]⟩
  | .orReg x y => ⟨.or, [.v x, .v y]⟩
  | .andReg x y => ⟨.and, [.v x, .v y]⟩
  | .xorReg x y => ⟨.xor, [.v x, .v y]⟩
  | .addReg x y => ⟨.add, [.v x, .v y]⟩
  | .sub x y => ⟨.sub, [.v x, .v y]⟩
  | .shr x _ => ⟨.shr, [.v x]⟩
  | .subn x y => ⟨.subn, [.v x, .v y]⟩
  | .shl x _ => ⟨.shl, [.v x]⟩
  | .sneReg x y => ⟨.sne, [.v x, .v y]⟩
  | .ldI nnn => ⟨.ld, [.i, .addr nnn]⟩
  | .jpV0 nnn => ⟨.jp, [.v 0, .addr nnn]⟩
  | .rnd x kk => ⟨.rnd, [.v x, .byte kk]⟩
  | .drw x y n => ⟨.drw, [.v x, .v y, .count n]⟩
  | .skp x => ⟨.skp, [.v x]⟩
  | .sknp x => ⟨.sknp, [.v x]⟩
  | .ldVxDT x => ⟨.ld, [.v x, .dt]⟩
  | .ldVxK x => ⟨.ld, [.v x, .k]⟩
  | .ldDTVx x => ⟨.ld, [.dt, .v x]⟩
  | .ldSTVx x => ⟨.ld, [.st, .v x]⟩
  | .addI x => ⟨.add, [.i, .v x]⟩
  | .ldF x => ⟨.ld, [.f, .v x]⟩
  | .ldB x => ⟨.ld, [.b, .v x]⟩
  | .ldMemVx x => ⟨.ld, [.memI, .v x]⟩
  | .ldVxMem x => ⟨.ld, [.v x, .memI]⟩

/-- The one instruction a line assembles to (R84), or none: a line of another form, a jump indirect by
a register other than `V0`, a row count above 15. "`SHR Vx` and `SHL Vx` assemble with `y = 0`" (R83). -/
def assemble (l : AsmLine) : Option Instr :=
  match l.mnemonic, l.operands with
  | .cls, [] => some .cls
  | .ret, [] => some .ret
  | .jp, [.addr nnn] => some (.jp nnn)
  | .jp, [.v r, .addr nnn] => if r = 0 then some (.jpV0 nnn) else none
  | .call, [.addr nnn] => some (.call nnn)
  | .se, [.v x, .byte kk] => some (.seImm x kk)
  | .se, [.v x, .v y] => some (.seReg x y)
  | .sne, [.v x, .byte kk] => some (.sneImm x kk)
  | .sne, [.v x, .v y] => some (.sneReg x y)
  | .ld, [.v x, .byte kk] => some (.ldImm x kk)
  | .ld, [.v x, .v y] => some (.ldReg x y)
  | .ld, [.i, .addr nnn] => some (.ldI nnn)
  | .ld, [.v x, .dt] => some (.ldVxDT x)
  | .ld, [.v x, .k] => some (.ldVxK x)
  | .ld, [.dt, .v x] => some (.ldDTVx x)
  | .ld, [.st, .v x] => some (.ldSTVx x)
  | .ld, [.f, .v x] => some (.ldF x)
  | .ld, [.b, .v x] => some (.ldB x)
  | .ld, [.memI, .v x] => some (.ldMemVx x)
  | .ld, [.v x, .memI] => some (.ldVxMem x)
  | .add, [.v x, .byte kk] => some (.addImm x kk)
  | .add, [.v x, .v y] => some (.addReg x y)
  | .add, [.i, .v x] => some (.addI x)
  | .or, [.v x, .v y] => some (.orReg x y)
  | .and, [.v x, .v y] => some (.andReg x y)
  | .xor, [.v x, .v y] => some (.xorReg x y)
  | .sub, [.v x, .v y] => some (.sub x y)
  | .subn, [.v x, .v y] => some (.subn x y)
  | .shr, [.v x] => some (.shr x 0)
  | .shl, [.v x] => some (.shl x 0)
  | .rnd, [.v x, .byte kk] => some (.rnd x kk)
  | .drw, [.v x, .v y, .count n] => if n ≤ 15 then some (.drw x y n) else none
  | .skp, [.v x] => some (.skp x)
  | .sknp, [.v x] => some (.sknp x)
  | _, _ => none

/-- The instruction with the field it ignores at 0 (R74, R83): the form that assembling gives. -/
def ignoredFieldZero : Instr → Instr
  | .shr x _ => .shr x 0
  | .shl x _ => .shl x 0
  | .cls => .cls | .ret => .ret | .jp nnn => .jp nnn | .call nnn => .call nnn
  | .seImm x kk => .seImm x kk | .sneImm x kk => .sneImm x kk | .seReg x y => .seReg x y
  | .ldImm x kk => .ldImm x kk | .addImm x kk => .addImm x kk | .ldReg x y => .ldReg x y
  | .orReg x y => .orReg x y | .andReg x y => .andReg x y | .xorReg x y => .xorReg x y
  | .addReg x y => .addReg x y | .sub x y => .sub x y | .subn x y => .subn x y
  | .sneReg x y => .sneReg x y | .ldI nnn => .ldI nnn | .jpV0 nnn => .jpV0 nnn
  | .rnd x kk => .rnd x kk | .drw x y n => .drw x y n | .skp x => .skp x | .sknp x => .sknp x
  | .ldVxDT x => .ldVxDT x | .ldVxK x => .ldVxK x | .ldDTVx x => .ldDTVx x
  | .ldSTVx x => .ldSTVx x | .addI x => .addI x | .ldF x => .ldF x | .ldB x => .ldB x
  | .ldMemVx x => .ldMemVx x | .ldVxMem x => .ldVxMem x

/-! ### Text -/

/-- A hex digit. -/
def hexDigit (n : Nat) : String :=
  (["0", "1", "2", "3", "4", "5", "6", "7"] ++ ["8", "9", "A", "B", "C", "D", "E", "F"])[n]?.getD ""

/-- A mnemonic's text (R83). -/
def Mnemonic.text : Mnemonic → String
  | .cls => "CLS" | .ret => "RET" | .jp => "JP" | .call => "CALL" | .se => "SE" | .sne => "SNE"
  | .ld => "LD" | .add => "ADD" | .or => "OR" | .and => "AND" | .xor => "XOR" | .sub => "SUB"
  | .shr => "SHR" | .subn => "SUBN" | .shl => "SHL" | .rnd => "RND" | .drw => "DRW" | .skp => "SKP"
  | .sknp => "SKNP"

/-- An operand's text: "registers as `V0` to `VF`, immediates in hex" (R83). DESIGN CHOICE (log 21): the
digits are those of the spec's examples, `0x` and three digits for an address, `0x` and two for a byte,
one bare digit for a row count. -/
def AsmOperand.text : AsmOperand → String
  | .v r => "V" ++ hexDigit r.val
  | .addr nnn => "0x" ++ hexDigit (nnn.toNat / 256) ++ hexDigit (nnn.toNat / 16 % 16)
      ++ hexDigit (nnn.toNat % 16)
  | .byte kk => "0x" ++ hexDigit (kk.toNat / 16) ++ hexDigit (kk.toNat % 16)
  | .count n => hexDigit n
  | .i => "I" | .dt => "DT" | .st => "ST" | .k => "K" | .f => "F" | .b => "B" | .memI => "[I]"

/-- The operands' text, parted by commas. -/
def operandsText : List AsmOperand → String
  | [] => ""
  | [o] => o.text
  | o :: p :: rest => o.text ++ ", " ++ operandsText (p :: rest)

/-- A line's text (R83). -/
def AsmLine.text (l : AsmLine) : String :=
  match l.operands with
  | [] => l.mnemonic.text
  | o :: rest => l.mnemonic.text ++ " " ++ operandsText (o :: rest)

end Sys2Proof.Machine
end

