-- ==== Sys2Proof/Laws/Assembler.lean ====
section
/-! SUPPORT. The assembler and an instruction's line are inverse, but for the field the shifts ignore
(spec/30_encoding.md R83, R84). -/

namespace Sys2Proof.Machine

/-- An instruction's line assembles to it, with `y = 0` in the shifts. -/
theorem assemble_asmLine (i : Instr) (h : i.wellFormed = true) :
    assemble (asmLine i) = some (ignoredFieldZero i) := by
  cases i with
  | drw x y n => simpa [asmLine, assemble, ignoredFieldZero, Instr.wellFormed] using h
  | _ => rfl

/-- A line that assembles is the line of the instruction it assembles to, which is well formed. -/
theorem asmLine_assemble {l : AsmLine} {i : Instr} (h : assemble l = some i) :
    asmLine i = l ∧ i.wellFormed = true := by
  obtain ⟨m, os⟩ := l
  unfold assemble at h
  simp only at h
  split at h <;> first
    | (cases h; exact ⟨rfl, rfl⟩)
    | cases h
    | (split at h
       · rename_i hc
         cases h
         simp [asmLine, Instr.wellFormed, hc]
       · cases h)

/-- The field an instruction ignores has no effect (R74). -/
theorem exec_ignoredFieldZero (i : Instr) (s : State) : exec (ignoredFieldZero i) s = exec i s := by
  cases i <;> rfl

/-- The line of an instruction does not say what the ignored field holds. -/
theorem asmLine_ignoredFieldZero (i : Instr) : asmLine (ignoredFieldZero i) = asmLine i := by
  cases i <;> rfl

end Sys2Proof.Machine
end

