-- ==== Sys2Proof/Laws/Encoding.lean ====
section
/-! SUPPORT. The fields of a word as arithmetic on its value, and of each format's word. -/

namespace Sys2Proof

theorem fieldO_toNat (w : Word) : (fieldO w).toNat = w.toNat / 4096 := by
  have := w.isLt
  simp only [fieldO, BitVec.extractLsb'_toNat, Nat.shiftRight_eq_div_pow]
  omega

theorem fieldXBits_toNat (w : Word) : (fieldXBits w).toNat = w.toNat / 256 % 16 := by
  simp [fieldXBits, BitVec.extractLsb'_toNat, Nat.shiftRight_eq_div_pow]

theorem fieldYBits_toNat (w : Word) : (fieldYBits w).toNat = w.toNat / 16 % 16 := by
  simp [fieldYBits, BitVec.extractLsb'_toNat, Nat.shiftRight_eq_div_pow]

theorem fieldN_toNat (w : Word) : (fieldN w).toNat = w.toNat % 16 := by
  simp [fieldN, BitVec.extractLsb'_toNat]

theorem fieldKK_toNat (w : Word) : (fieldKK w).toNat = w.toNat % 256 := by
  simp [fieldKK, BitVec.extractLsb'_toNat]

theorem fieldNNN_toNat (w : Word) : (fieldNNN w).toNat = w.toNat % 4096 := by
  simp [fieldNNN, BitVec.extractLsb'_toNat]

theorem fieldX_val (w : Word) : (fieldX w).val = w.toNat / 256 % 16 := fieldXBits_toNat w

theorem fieldY_val (w : Word) : (fieldY w).val = w.toNat / 16 % 16 := fieldYBits_toNat w

theorem hiByte_toNat (w : Word) : (hiByte w).toNat = w.toNat / 256 := by
  have := w.isLt
  simp only [hiByte, BitVec.extractLsb'_toNat, Nat.shiftRight_eq_div_pow]
  omega

theorem loByte_toNat (w : Word) : (loByte w).toNat = w.toNat % 256 := by
  simp [loByte, BitVec.extractLsb'_toNat]

theorem append_toNat_eq {m n : Nat} (a : BitVec m) (b : BitVec n) :
    (a ++ b).toNat = a.toNat * 2 ^ n + b.toNat := by
  rw [BitVec.toNat_append, ← Nat.shiftLeft_add_eq_or_of_lt b.isLt, Nat.shiftLeft_eq]

theorem wordOfBytes_toNat (hi lo : Byte) :
    (wordOfBytes hi lo).toNat = hi.toNat * 256 + lo.toNat :=
  append_toNat_eq hi lo

@[simp] theorem bitsOfReg_toNat (r : Reg) : (bitsOfReg r).toNat = r.val := by
  simp [bitsOfReg]

theorem fmtNNN_toNat (o : BitVec 4) (nnn : BitVec 12) :
    (fmtNNN o nnn).toNat = o.toNat * 4096 + nnn.toNat :=
  append_toNat_eq o nnn

theorem fmtXKK_toNat (o : BitVec 4) (x : Reg) (kk : Byte) :
    (fmtXKK o x kk).toNat = o.toNat * 4096 + x.val * 256 + kk.toNat := by
  have h : (fmtXKK o x kk).toNat = (o ++ bitsOfReg x).toNat * 2 ^ 8 + kk.toNat :=
    append_toNat_eq (o ++ bitsOfReg x) kk
  rw [h, append_toNat_eq, bitsOfReg_toNat]
  omega

theorem fmtXYN_toNat (o : BitVec 4) (x y : Reg) (n : BitVec 4) :
    (fmtXYN o x y n).toNat = o.toNat * 4096 + x.val * 256 + y.val * 16 + n.toNat := by
  have h : (fmtXYN o x y n).toNat = (o ++ bitsOfReg x ++ bitsOfReg y).toNat * 2 ^ 4 + n.toNat :=
    append_toNat_eq (o ++ bitsOfReg x ++ bitsOfReg y) n
  have h' : (o ++ bitsOfReg x ++ bitsOfReg y).toNat
      = (o ++ bitsOfReg x).toNat * 2 ^ 4 + (bitsOfReg y).toNat :=
    append_toNat_eq (o ++ bitsOfReg x) (bitsOfReg y)
  rw [h, h', append_toNat_eq, bitsOfReg_toNat, bitsOfReg_toNat]
  omega

/-! ### The fields of each format (R71, R72) -/

@[simp] theorem fieldO_fmtNNN (o : BitVec 4) (nnn : BitVec 12) : fieldO (fmtNNN o nnn) = o := by
  apply BitVec.eq_of_toNat_eq
  rw [fieldO_toNat, fmtNNN_toNat]
  have := nnn.isLt
  omega

@[simp] theorem fieldNNN_fmtNNN (o : BitVec 4) (nnn : BitVec 12) :
    fieldNNN (fmtNNN o nnn) = nnn := by
  apply BitVec.eq_of_toNat_eq
  rw [fieldNNN_toNat, fmtNNN_toNat]
  have := nnn.isLt
  omega

@[simp] theorem fieldO_fmtXKK (o : BitVec 4) (x : Reg) (kk : Byte) :
    fieldO (fmtXKK o x kk) = o := by
  apply BitVec.eq_of_toNat_eq
  rw [fieldO_toNat, fmtXKK_toNat]
  have := kk.isLt
  have := x.isLt
  omega

@[simp] theorem fieldX_fmtXKK (o : BitVec 4) (x : Reg) (kk : Byte) :
    fieldX (fmtXKK o x kk) = x := by
  apply Fin.ext
  rw [fieldX_val, fmtXKK_toNat]
  have := kk.isLt
  have := x.isLt
  omega

@[simp] theorem fieldKK_fmtXKK (o : BitVec 4) (x : Reg) (kk : Byte) :
    fieldKK (fmtXKK o x kk) = kk := by
  apply BitVec.eq_of_toNat_eq
  rw [fieldKK_toNat, fmtXKK_toNat]
  have := kk.isLt
  omega

@[simp] theorem fieldO_fmtXYN (o : BitVec 4) (x y : Reg) (n : BitVec 4) :
    fieldO (fmtXYN o x y n) = o := by
  apply BitVec.eq_of_toNat_eq
  rw [fieldO_toNat, fmtXYN_toNat]
  have := x.isLt
  have := y.isLt
  have := n.isLt
  omega

@[simp] theorem fieldX_fmtXYN (o : BitVec 4) (x y : Reg) (n : BitVec 4) :
    fieldX (fmtXYN o x y n) = x := by
  apply Fin.ext
  rw [fieldX_val, fmtXYN_toNat]
  have := x.isLt
  have := y.isLt
  have := n.isLt
  omega

@[simp] theorem fieldY_fmtXYN (o : BitVec 4) (x y : Reg) (n : BitVec 4) :
    fieldY (fmtXYN o x y n) = y := by
  apply Fin.ext
  rw [fieldY_val, fmtXYN_toNat]
  have := y.isLt
  have := n.isLt
  omega

@[simp] theorem fieldN_fmtXYN (o : BitVec 4) (x y : Reg) (n : BitVec 4) :
    fieldN (fmtXYN o x y n) = n := by
  apply BitVec.eq_of_toNat_eq
  rw [fieldN_toNat, fmtXYN_toNat]
  have := n.isLt
  omega

/-! ### A word from its fields -/

theorem fmtNNN_fields (w : Word) : fmtNNN (fieldO w) (fieldNNN w) = w := by
  apply BitVec.eq_of_toNat_eq
  rw [fmtNNN_toNat, fieldO_toNat, fieldNNN_toNat]
  omega

theorem fmtXKK_fields (w : Word) : fmtXKK (fieldO w) (fieldX w) (fieldKK w) = w := by
  apply BitVec.eq_of_toNat_eq
  rw [fmtXKK_toNat, fieldO_toNat, fieldX_val, fieldKK_toNat]
  omega

theorem fmtXYN_fields (w : Word) : fmtXYN (fieldO w) (fieldX w) (fieldY w) (fieldN w) = w := by
  apply BitVec.eq_of_toNat_eq
  rw [fmtXYN_toNat, fieldO_toNat, fieldX_val, fieldY_val, fieldN_toNat]
  omega

/-- A word stored high byte first is read back (R53). -/
@[simp] theorem wordOfBytes_split (w : Word) : wordOfBytes (hiByte w) (loByte w) = w := by
  apply BitVec.eq_of_toNat_eq
  rw [wordOfBytes_toNat, hiByte_toNat, loByte_toNat]
  omega

@[simp] theorem hiByte_wordOfBytes (hi lo : Byte) : hiByte (wordOfBytes hi lo) = hi := by
  apply BitVec.eq_of_toNat_eq
  rw [hiByte_toNat, wordOfBytes_toNat]
  have := lo.isLt
  omega

@[simp] theorem loByte_wordOfBytes (hi lo : Byte) : loByte (wordOfBytes hi lo) = lo := by
  apply BitVec.eq_of_toNat_eq
  rw [loByte_toNat, wordOfBytes_toNat]
  have := lo.isLt
  omega

end Sys2Proof
end

