-- ==== Sys2Proof/Laws/State.lean ====
section
/-! SUPPORT. One lemma per field per update of the state, and reading a register after each: later
proofs never unfold a record update. -/

namespace Sys2Proof.Machine

/-! ### writeV -/

@[simp] theorem writeV_v (s : State) (r : Reg) (b : Byte) :
    (s.writeV r b).v = s.v.set r.val b := rfl
@[simp] theorem writeV_idx (s : State) (r : Reg) (b : Byte) : (s.writeV r b).idx = s.idx := rfl
@[simp] theorem writeV_pc (s : State) (r : Reg) (b : Byte) : (s.writeV r b).pc = s.pc := rfl
@[simp] theorem writeV_stack (s : State) (r : Reg) (b : Byte) :
    (s.writeV r b).stack = s.stack := rfl
@[simp] theorem writeV_dt (s : State) (r : Reg) (b : Byte) : (s.writeV r b).dt = s.dt := rfl
@[simp] theorem writeV_st (s : State) (r : Reg) (b : Byte) : (s.writeV r b).st = s.st := rfl
@[simp] theorem writeV_disp (s : State) (r : Reg) (b : Byte) : (s.writeV r b).disp = s.disp := rfl
@[simp] theorem writeV_mem (s : State) (r : Reg) (b : Byte) : (s.writeV r b).mem = s.mem := rfl
@[simp] theorem writeV_fault (s : State) (r : Reg) (b : Byte) :
    (s.writeV r b).fault = s.fault := rfl
@[simp] theorem writeV_waiting (s : State) (r : Reg) (b : Byte) :
    (s.writeV r b).waiting = s.waiting := rfl
@[simp] theorem writeV_host (s : State) (r : Reg) (b : Byte) : (s.writeV r b).host = s.host := rfl
@[simp] theorem writeV_turns (s : State) (r : Reg) (b : Byte) :
    (s.writeV r b).turns = s.turns := rfl

/-! ### writeI -/

@[simp] theorem writeI_v (s : State) (a : Word) : (s.writeI a).v = s.v := rfl
@[simp] theorem writeI_idx (s : State) (a : Word) : (s.writeI a).idx = a &&& 0x0FFF#16 := rfl
@[simp] theorem writeI_pc (s : State) (a : Word) : (s.writeI a).pc = s.pc := rfl
@[simp] theorem writeI_stack (s : State) (a : Word) : (s.writeI a).stack = s.stack := rfl
@[simp] theorem writeI_dt (s : State) (a : Word) : (s.writeI a).dt = s.dt := rfl
@[simp] theorem writeI_st (s : State) (a : Word) : (s.writeI a).st = s.st := rfl
@[simp] theorem writeI_disp (s : State) (a : Word) : (s.writeI a).disp = s.disp := rfl
@[simp] theorem writeI_mem (s : State) (a : Word) : (s.writeI a).mem = s.mem := rfl
@[simp] theorem writeI_fault (s : State) (a : Word) : (s.writeI a).fault = s.fault := rfl
@[simp] theorem writeI_waiting (s : State) (a : Word) : (s.writeI a).waiting = s.waiting := rfl
@[simp] theorem writeI_host (s : State) (a : Word) : (s.writeI a).host = s.host := rfl
@[simp] theorem writeI_turns (s : State) (a : Word) : (s.writeI a).turns = s.turns := rfl
@[simp] theorem writeI_readV (s : State) (a : Word) (q : Reg) :
    (s.writeI a).readV q = s.readV q := rfl

/-! ### writePC -/

@[simp] theorem writePC_v (s : State) (a : Word) : (s.writePC a).v = s.v := rfl
@[simp] theorem writePC_idx (s : State) (a : Word) : (s.writePC a).idx = s.idx := rfl
@[simp] theorem writePC_pc (s : State) (a : Word) : (s.writePC a).pc = a := rfl
@[simp] theorem writePC_stack (s : State) (a : Word) : (s.writePC a).stack = s.stack := rfl
@[simp] theorem writePC_dt (s : State) (a : Word) : (s.writePC a).dt = s.dt := rfl
@[simp] theorem writePC_st (s : State) (a : Word) : (s.writePC a).st = s.st := rfl
@[simp] theorem writePC_disp (s : State) (a : Word) : (s.writePC a).disp = s.disp := rfl
@[simp] theorem writePC_mem (s : State) (a : Word) : (s.writePC a).mem = s.mem := rfl
@[simp] theorem writePC_fault (s : State) (a : Word) : (s.writePC a).fault = s.fault := rfl
@[simp] theorem writePC_waiting (s : State) (a : Word) : (s.writePC a).waiting = s.waiting := rfl
@[simp] theorem writePC_host (s : State) (a : Word) : (s.writePC a).host = s.host := rfl
@[simp] theorem writePC_turns (s : State) (a : Word) : (s.writePC a).turns = s.turns := rfl
@[simp] theorem writePC_readV (s : State) (a : Word) (q : Reg) :
    (s.writePC a).readV q = s.readV q := rfl

/-! ### advance -/

@[simp] theorem advance_v (s : State) : (s.advance).v = s.v := rfl
@[simp] theorem advance_idx (s : State) : (s.advance).idx = s.idx := rfl
@[simp] theorem advance_pc (s : State) : (s.advance).pc = s.pc + 2 := rfl
@[simp] theorem advance_stack (s : State) : (s.advance).stack = s.stack := rfl
@[simp] theorem advance_dt (s : State) : (s.advance).dt = s.dt := rfl
@[simp] theorem advance_st (s : State) : (s.advance).st = s.st := rfl
@[simp] theorem advance_disp (s : State) : (s.advance).disp = s.disp := rfl
@[simp] theorem advance_mem (s : State) : (s.advance).mem = s.mem := rfl
@[simp] theorem advance_fault (s : State) : (s.advance).fault = s.fault := rfl
@[simp] theorem advance_waiting (s : State) : (s.advance).waiting = s.waiting := rfl
@[simp] theorem advance_host (s : State) : (s.advance).host = s.host := rfl
@[simp] theorem advance_turns (s : State) : (s.advance).turns = s.turns := rfl
@[simp] theorem advance_readV (s : State) (q : Reg) : (s.advance).readV q = s.readV q := rfl

/-! ### skipIf -/

@[simp] theorem skipIf_v (c : Bool) (s : State) : (s.skipIf c).v = s.v := rfl
@[simp] theorem skipIf_idx (c : Bool) (s : State) : (s.skipIf c).idx = s.idx := rfl
@[simp] theorem skipIf_pc (c : Bool) (s : State) :
    (s.skipIf c).pc = if c then s.pc + 4 else s.pc + 2 := rfl
@[simp] theorem skipIf_stack (c : Bool) (s : State) : (s.skipIf c).stack = s.stack := rfl
@[simp] theorem skipIf_dt (c : Bool) (s : State) : (s.skipIf c).dt = s.dt := rfl
@[simp] theorem skipIf_st (c : Bool) (s : State) : (s.skipIf c).st = s.st := rfl
@[simp] theorem skipIf_disp (c : Bool) (s : State) : (s.skipIf c).disp = s.disp := rfl
@[simp] theorem skipIf_mem (c : Bool) (s : State) : (s.skipIf c).mem = s.mem := rfl
@[simp] theorem skipIf_fault (c : Bool) (s : State) : (s.skipIf c).fault = s.fault := rfl
@[simp] theorem skipIf_waiting (c : Bool) (s : State) : (s.skipIf c).waiting = s.waiting := rfl
@[simp] theorem skipIf_host (c : Bool) (s : State) : (s.skipIf c).host = s.host := rfl
@[simp] theorem skipIf_turns (c : Bool) (s : State) : (s.skipIf c).turns = s.turns := rfl
@[simp] theorem skipIf_readV (c : Bool) (s : State) (q : Reg) :
    (s.skipIf c).readV q = s.readV q := rfl

/-! ### writeWithFlag -/

@[simp] theorem writeWithFlag_v (s : State) (x : Reg) (r f : Byte) :
    (s.writeWithFlag x r f).v = (s.v.set x.val r).set VF.val f := rfl
@[simp] theorem writeWithFlag_idx (s : State) (x : Reg) (r f : Byte) :
    (s.writeWithFlag x r f).idx = s.idx := rfl
@[simp] theorem writeWithFlag_pc (s : State) (x : Reg) (r f : Byte) :
    (s.writeWithFlag x r f).pc = s.pc := rfl
@[simp] theorem writeWithFlag_stack (s : State) (x : Reg) (r f : Byte) :
    (s.writeWithFlag x r f).stack = s.stack := rfl
@[simp] theorem writeWithFlag_dt (s : State) (x : Reg) (r f : Byte) :
    (s.writeWithFlag x r f).dt = s.dt := rfl
@[simp] theorem writeWithFlag_st (s : State) (x : Reg) (r f : Byte) :
    (s.writeWithFlag x r f).st = s.st := rfl
@[simp] theorem writeWithFlag_disp (s : State) (x : Reg) (r f : Byte) :
    (s.writeWithFlag x r f).disp = s.disp := rfl
@[simp] theorem writeWithFlag_mem (s : State) (x : Reg) (r f : Byte) :
    (s.writeWithFlag x r f).mem = s.mem := rfl
@[simp] theorem writeWithFlag_fault (s : State) (x : Reg) (r f : Byte) :
    (s.writeWithFlag x r f).fault = s.fault := rfl
@[simp] theorem writeWithFlag_waiting (s : State) (x : Reg) (r f : Byte) :
    (s.writeWithFlag x r f).waiting = s.waiting := rfl
@[simp] theorem writeWithFlag_host (s : State) (x : Reg) (r f : Byte) :
    (s.writeWithFlag x r f).host = s.host := rfl
@[simp] theorem writeWithFlag_turns (s : State) (x : Reg) (r f : Byte) :
    (s.writeWithFlag x r f).turns = s.turns := rfl

/-! ### loadRegsUpTo -/

@[simp] theorem loadRegsUpTo_idx (s : State) (x : Reg) : (loadRegsUpTo s x).idx = s.idx := rfl
@[simp] theorem loadRegsUpTo_pc (s : State) (x : Reg) : (loadRegsUpTo s x).pc = s.pc := rfl
@[simp] theorem loadRegsUpTo_stack (s : State) (x : Reg) : (loadRegsUpTo s x).stack = s.stack := rfl
@[simp] theorem loadRegsUpTo_dt (s : State) (x : Reg) : (loadRegsUpTo s x).dt = s.dt := rfl
@[simp] theorem loadRegsUpTo_st (s : State) (x : Reg) : (loadRegsUpTo s x).st = s.st := rfl
@[simp] theorem loadRegsUpTo_disp (s : State) (x : Reg) : (loadRegsUpTo s x).disp = s.disp := rfl
@[simp] theorem loadRegsUpTo_mem (s : State) (x : Reg) : (loadRegsUpTo s x).mem = s.mem := rfl
@[simp] theorem loadRegsUpTo_fault (s : State) (x : Reg) : (loadRegsUpTo s x).fault = s.fault := rfl
@[simp] theorem loadRegsUpTo_waiting (s : State) (x : Reg) :
    (loadRegsUpTo s x).waiting = s.waiting := rfl
@[simp] theorem loadRegsUpTo_host (s : State) (x : Reg) : (loadRegsUpTo s x).host = s.host := rfl
@[simp] theorem loadRegsUpTo_turns (s : State) (x : Reg) : (loadRegsUpTo s x).turns = s.turns := rfl

/-! ### drawSprite -/

@[simp] theorem drawSprite_idx (s : State) (x y : Reg) (rows : List Byte) :
    (drawSprite s x y rows).idx = s.idx := rfl
@[simp] theorem drawSprite_pc (s : State) (x y : Reg) (rows : List Byte) :
    (drawSprite s x y rows).pc = s.pc := rfl
@[simp] theorem drawSprite_stack (s : State) (x y : Reg) (rows : List Byte) :
    (drawSprite s x y rows).stack = s.stack := rfl
@[simp] theorem drawSprite_dt (s : State) (x y : Reg) (rows : List Byte) :
    (drawSprite s x y rows).dt = s.dt := rfl
@[simp] theorem drawSprite_st (s : State) (x y : Reg) (rows : List Byte) :
    (drawSprite s x y rows).st = s.st := rfl
@[simp] theorem drawSprite_disp (s : State) (x y : Reg) (rows : List Byte) :
    (drawSprite s x y rows).disp = (compositeSprite s.disp (s.readV x).toNat (s.readV y).toNat rows).1 := rfl
@[simp] theorem drawSprite_mem (s : State) (x y : Reg) (rows : List Byte) :
    (drawSprite s x y rows).mem = s.mem := rfl
@[simp] theorem drawSprite_fault (s : State) (x y : Reg) (rows : List Byte) :
    (drawSprite s x y rows).fault = s.fault := rfl
@[simp] theorem drawSprite_waiting (s : State) (x y : Reg) (rows : List Byte) :
    (drawSprite s x y rows).waiting = s.waiting := rfl
@[simp] theorem drawSprite_host (s : State) (x y : Reg) (rows : List Byte) :
    (drawSprite s x y rows).host = s.host := rfl
@[simp] theorem drawSprite_turns (s : State) (x y : Reg) (rows : List Byte) :
    (drawSprite s x y rows).turns = s.turns := rfl

/-! ### beginTurn -/

@[simp] theorem beginTurn_v (s : State) : (s.beginTurn).v = s.v := rfl
@[simp] theorem beginTurn_idx (s : State) : (s.beginTurn).idx = s.idx := rfl
@[simp] theorem beginTurn_pc (s : State) : (s.beginTurn).pc = s.pc := rfl
@[simp] theorem beginTurn_stack (s : State) : (s.beginTurn).stack = s.stack := rfl
@[simp] theorem beginTurn_dt (s : State) :
    (s.beginTurn).dt = timerAfter s.hostTurn.ticks s.dt := rfl
@[simp] theorem beginTurn_st (s : State) :
    (s.beginTurn).st = timerAfter s.hostTurn.ticks s.st := rfl
@[simp] theorem beginTurn_disp (s : State) : (s.beginTurn).disp = s.disp := rfl
@[simp] theorem beginTurn_mem (s : State) : (s.beginTurn).mem = s.mem := rfl
@[simp] theorem beginTurn_fault (s : State) : (s.beginTurn).fault = s.fault := rfl
@[simp] theorem beginTurn_waiting (s : State) : (s.beginTurn).waiting = s.waiting := rfl
@[simp] theorem beginTurn_host (s : State) : (s.beginTurn).host = s.host := rfl
@[simp] theorem beginTurn_turns (s : State) : (s.beginTurn).turns = s.turns := rfl
@[simp] theorem beginTurn_readV (s : State) (q : Reg) : (s.beginTurn).readV q = s.readV q := rfl

/-! ### endTurn -/

@[simp] theorem endTurn_v (s : State) : (s.endTurn).v = s.v := rfl
@[simp] theorem endTurn_idx (s : State) : (s.endTurn).idx = s.idx := rfl
@[simp] theorem endTurn_pc (s : State) : (s.endTurn).pc = s.pc := rfl
@[simp] theorem endTurn_stack (s : State) : (s.endTurn).stack = s.stack := rfl
@[simp] theorem endTurn_dt (s : State) : (s.endTurn).dt = s.dt := rfl
@[simp] theorem endTurn_st (s : State) : (s.endTurn).st = s.st := rfl
@[simp] theorem endTurn_disp (s : State) : (s.endTurn).disp = s.disp := rfl
@[simp] theorem endTurn_mem (s : State) : (s.endTurn).mem = s.mem := rfl
@[simp] theorem endTurn_fault (s : State) : (s.endTurn).fault = s.fault := rfl
@[simp] theorem endTurn_waiting (s : State) : (s.endTurn).waiting = s.waiting := rfl
@[simp] theorem endTurn_host (s : State) : (s.endTurn).host = s.host.tail := rfl
@[simp] theorem endTurn_turns (s : State) : (s.endTurn).turns = s.turns + 1 := rfl
@[simp] theorem endTurn_readV (s : State) (q : Reg) : (s.endTurn).readV q = s.readV q := rfl

/-! ### recordFault -/

@[simp] theorem recordFault_v (f : Fault) (s : State) :
    (s.recordFault f).v = s.v := by unfold State.recordFault; split <;> rfl
@[simp] theorem recordFault_idx (f : Fault) (s : State) :
    (s.recordFault f).idx = s.idx := by unfold State.recordFault; split <;> rfl
@[simp] theorem recordFault_pc (f : Fault) (s : State) :
    (s.recordFault f).pc = s.pc := by unfold State.recordFault; split <;> rfl
@[simp] theorem recordFault_stack (f : Fault) (s : State) :
    (s.recordFault f).stack = s.stack := by unfold State.recordFault; split <;> rfl
@[simp] theorem recordFault_dt (f : Fault) (s : State) :
    (s.recordFault f).dt = s.dt := by unfold State.recordFault; split <;> rfl
@[simp] theorem recordFault_st (f : Fault) (s : State) :
    (s.recordFault f).st = s.st := by unfold State.recordFault; split <;> rfl
@[simp] theorem recordFault_disp (f : Fault) (s : State) :
    (s.recordFault f).disp = s.disp := by unfold State.recordFault; split <;> rfl
@[simp] theorem recordFault_mem (f : Fault) (s : State) :
    (s.recordFault f).mem = s.mem := by unfold State.recordFault; split <;> rfl
@[simp] theorem recordFault_waiting (f : Fault) (s : State) :
    (s.recordFault f).waiting = s.waiting := by unfold State.recordFault; split <;> rfl
@[simp] theorem recordFault_host (f : Fault) (s : State) :
    (s.recordFault f).host = s.host := by unfold State.recordFault; split <;> rfl
@[simp] theorem recordFault_turns (f : Fault) (s : State) :
    (s.recordFault f).turns = s.turns := by unfold State.recordFault; split <;> rfl
@[simp] theorem recordFault_readV (f : Fault) (s : State) (q : Reg) :
    (s.recordFault f).readV q = s.readV q := by simp [State.readV]

/-! ### load -/

@[simp] theorem load_v (image : List Byte) (s : State) :
    (s.load image).v = s.v := by unfold State.load; split <;> rfl
@[simp] theorem load_idx (image : List Byte) (s : State) :
    (s.load image).idx = s.idx := by unfold State.load; split <;> rfl
@[simp] theorem load_pc (image : List Byte) (s : State) :
    (s.load image).pc = s.pc := by unfold State.load; split <;> rfl
@[simp] theorem load_stack (image : List Byte) (s : State) :
    (s.load image).stack = s.stack := by unfold State.load; split <;> rfl
@[simp] theorem load_dt (image : List Byte) (s : State) :
    (s.load image).dt = s.dt := by unfold State.load; split <;> rfl
@[simp] theorem load_st (image : List Byte) (s : State) :
    (s.load image).st = s.st := by unfold State.load; split <;> rfl
@[simp] theorem load_disp (image : List Byte) (s : State) :
    (s.load image).disp = s.disp := by unfold State.load; split <;> rfl
@[simp] theorem load_fault (image : List Byte) (s : State) :
    (s.load image).fault = s.fault := by unfold State.load; split <;> rfl
@[simp] theorem load_waiting (image : List Byte) (s : State) :
    (s.load image).waiting = s.waiting := by unfold State.load; split <;> rfl
@[simp] theorem load_host (image : List Byte) (s : State) :
    (s.load image).host = s.host := by unfold State.load; split <;> rfl
@[simp] theorem load_turns (image : List Byte) (s : State) :
    (s.load image).turns = s.turns := by unfold State.load; split <;> rfl
@[simp] theorem load_readV (image : List Byte) (s : State) (q : Reg) :
    (s.load image).readV q = s.readV q := by simp [State.readV]

/-! ### placeAtPC -/

@[simp] theorem placeAtPC_v (s : State) (w : Word) :
    (s.placeAtPC w).v = s.v := by unfold State.placeAtPC; split <;> rfl
@[simp] theorem placeAtPC_idx (s : State) (w : Word) :
    (s.placeAtPC w).idx = s.idx := by unfold State.placeAtPC; split <;> rfl
@[simp] theorem placeAtPC_pc (s : State) (w : Word) :
    (s.placeAtPC w).pc = s.pc := by unfold State.placeAtPC; split <;> rfl
@[simp] theorem placeAtPC_stack (s : State) (w : Word) :
    (s.placeAtPC w).stack = s.stack := by unfold State.placeAtPC; split <;> rfl
@[simp] theorem placeAtPC_dt (s : State) (w : Word) :
    (s.placeAtPC w).dt = s.dt := by unfold State.placeAtPC; split <;> rfl
@[simp] theorem placeAtPC_st (s : State) (w : Word) :
    (s.placeAtPC w).st = s.st := by unfold State.placeAtPC; split <;> rfl
@[simp] theorem placeAtPC_disp (s : State) (w : Word) :
    (s.placeAtPC w).disp = s.disp := by unfold State.placeAtPC; split <;> rfl
@[simp] theorem placeAtPC_fault (s : State) (w : Word) :
    (s.placeAtPC w).fault = s.fault := by unfold State.placeAtPC; split <;> rfl
@[simp] theorem placeAtPC_waiting (s : State) (w : Word) :
    (s.placeAtPC w).waiting = s.waiting := by unfold State.placeAtPC; split <;> rfl
@[simp] theorem placeAtPC_host (s : State) (w : Word) :
    (s.placeAtPC w).host = s.host := by unfold State.placeAtPC; split <;> rfl
@[simp] theorem placeAtPC_turns (s : State) (w : Word) :
    (s.placeAtPC w).turns = s.turns := by unfold State.placeAtPC; split <;> rfl
@[simp] theorem placeAtPC_readV (s : State) (w : Word) (q : Reg) :
    (s.placeAtPC w).readV q = s.readV q := by simp [State.readV]

/-! ### noteWait -/

@[simp] theorem noteWait_v (s : State) : s.noteWait.v = s.v := rfl
@[simp] theorem noteWait_idx (s : State) : s.noteWait.idx = s.idx := rfl
@[simp] theorem noteWait_pc (s : State) : s.noteWait.pc = s.pc := rfl
@[simp] theorem noteWait_stack (s : State) : s.noteWait.stack = s.stack := rfl
@[simp] theorem noteWait_dt (s : State) : s.noteWait.dt = s.dt := rfl
@[simp] theorem noteWait_st (s : State) : s.noteWait.st = s.st := rfl
@[simp] theorem noteWait_disp (s : State) : s.noteWait.disp = s.disp := rfl
@[simp] theorem noteWait_mem (s : State) : s.noteWait.mem = s.mem := rfl
@[simp] theorem noteWait_fault (s : State) : s.noteWait.fault = s.fault := rfl
@[simp] theorem noteWait_host (s : State) : s.noteWait.host = s.host := rfl
@[simp] theorem noteWait_turns (s : State) : s.noteWait.turns = s.turns := rfl
@[simp] theorem noteWait_waiting (s : State) : s.noteWait.waiting = true := rfl
@[simp] theorem noteWait_readV (s : State) (q : Reg) : s.noteWait.readV q = s.readV q := rfl

/-! ### Reading a register -/

theorem readV_writeV (s : State) (r q : Reg) (b : Byte) :
    (s.writeV r b).readV q = if q = r then b else s.readV q := by
  by_cases h : q = r
  · subst h; simp [State.readV, State.writeV]
  · have : r.val ≠ q.val := fun e => h (Fin.ext e.symm)
    simp [State.readV, State.writeV, h, this]

@[simp] theorem readV_writeV_same (s : State) (r : Reg) (b : Byte) : (s.writeV r b).readV r = b := by
  simp [readV_writeV]

@[simp] theorem readV_writeV_ne (s : State) {r q : Reg} (b : Byte) (h : q ≠ r) :
    (s.writeV r b).readV q = s.readV q := by
  simp [readV_writeV, h]

theorem readV_congr {s t : State} (h : t.v = s.v) (r : Reg) : t.readV r = s.readV r := by
  simp [State.readV, h]

/-- The flag is written last: it stays where the destination is `VF` (R140). -/
theorem readV_writeWithFlag (s : State) (x q : Reg) (r f : Byte) :
    (s.writeWithFlag x r f).readV q = if q = VF then f else if q = x then r else s.readV q := by
  simp [State.writeWithFlag, readV_writeV]

/-- Loading `V0` to `Vx` reads memory for those and leaves the others (R175). -/
theorem readV_loadRegsUpTo (s : State) (x q : Reg) :
    (loadRegsUpTo s x).readV q
      = if q ≤ x then s.mem.read (dataAddr s q.val) else s.readV q := by
  simp [State.readV, loadRegsUpTo]

theorem readV_drawSprite (s : State) (x y q : Reg) (rows : List Byte) :
    (drawSprite s x y rows).readV q
      = if q = VF then
          flagOf (compositeSprite s.disp (s.readV x).toNat (s.readV y).toNat rows).2
        else s.readV q := by
  simp only [drawSprite, readV_writeV]
  rfl

/-! ### What the host answers is the same after a change of anything but its turns -/

theorem hostTurn_congr {s t : State} (h : t.host = s.host) (n : t.turns = s.turns) :
    t.hostTurn = s.hostTurn := by
  simp [State.hostTurn, h, n]

@[simp] theorem beginTurn_hostTurn (s : State) : s.beginTurn.hostTurn = s.hostTurn := rfl

theorem recordFault_of_none {s : State} (h : s.fault = none) (f : Fault) :
    s.recordFault f = { s with fault := some f } := by
  simp [State.recordFault, h]

theorem recordFault_of_some {s : State} {g : Fault} (h : s.fault = some g) (f : Fault) :
    s.recordFault f = s := by
  simp [State.recordFault, h]

end Sys2Proof.Machine
end

