-- ==== Sys2Proof/Laws/Memory.lean ====
section
/-! SUPPORT. The laws of memory: a read after a write, and every memory operation keeps the canonical
form. -/

namespace Sys2Proof.Machine

theorem Memory.wfFrom_cons {lo a : Nat} {u : Byte} {m : Memory} :
    Memory.wfFrom lo ((a, u) :: m) = true ↔
      lo ≤ a ∧ a < Config.memSize ∧ u ≠ Memory.background a ∧ Memory.wfFrom (a + 1) m = true := by
  simp [Memory.wfFrom, and_assoc]

theorem Memory.wfFrom_mono {lo lo' : Nat} (h : lo' ≤ lo) :
    ∀ {m : Memory}, Memory.wfFrom lo m = true → Memory.wfFrom lo' m = true
  | [], _ => rfl
  | (a, u) :: m, hm => by
    rw [Memory.wfFrom_cons] at hm ⊢
    exact ⟨h.trans hm.1, hm.2⟩

/-- An address below the form's bound is not listed. -/
theorem Memory.read_below {lo a : Nat} (h : a < lo) :
    ∀ {m : Memory}, Memory.wfFrom lo m = true → m.read a = Memory.background a
  | [], _ => rfl
  | (b, u) :: m, hm => by
    rw [Memory.wfFrom_cons] at hm
    have hne : a ≠ b := by omega
    simp only [Memory.read, if_neg hne]
    exact Memory.read_below (by omega) hm.2.2.2

/-- An address outside memory is not listed. -/
theorem Memory.read_outside {lo a : Nat} (h : Config.memSize ≤ a) :
    ∀ {m : Memory}, Memory.wfFrom lo m = true → m.read a = Memory.background a
  | [], _ => rfl
  | (b, u) :: m, hm => by
    rw [Memory.wfFrom_cons] at hm
    have hne : a ≠ b := by omega
    simp only [Memory.read, if_neg hne]
    exact Memory.read_outside h hm.2.2.2

theorem Memory.read_cons {lo a b : Nat} {u : Byte} {m : Memory} (hlt : a < lo)
    (hm : Memory.wfFrom lo m = true) :
    (Memory.cons a u m).read b = if b = a then u else m.read b := by
  unfold Memory.cons
  split
  · rename_i hu
    split
    · rename_i hb
      rw [hb, Memory.read_below hlt hm, hu]
    · rfl
  · simp [Memory.read]

theorem Memory.wfFrom_consIf {lo a : Nat} {u : Byte} {m : Memory} (hlo : lo ≤ a)
    (ha : a < Config.memSize) (hm : Memory.wfFrom (a + 1) m = true) :
    Memory.wfFrom lo (Memory.cons a u m) = true := by
  unfold Memory.cons
  split
  · exact Memory.wfFrom_mono (by omega) hm
  · rename_i hu
    exact Memory.wfFrom_cons.2 ⟨hlo, ha, hu, hm⟩

/-- A read after a write: the byte written there, every other byte as before. -/
theorem Memory.read_writeFrom {a b : Nat} {u : Byte} :
    ∀ {lo : Nat} {m : Memory}, Memory.wfFrom lo m = true →
      (m.write a u).read b = if b = a then u else m.read b
  | lo, [], _ => Memory.read_cons (lo := a + 1) (by omega) rfl
  | lo, (c, w) :: m, hm => by
    have hc := Memory.wfFrom_cons.1 hm
    unfold Memory.write
    split
    · exact Memory.read_cons (lo := c) (by omega)
        (Memory.wfFrom_cons.2 ⟨le_refl _, hc.2⟩)
    · split
      · rename_i _ hac
        subst hac
        rw [Memory.read_cons (lo := a + 1) (by omega) hc.2.2.2]
        split
        · rfl
        · rename_i hb
          simp [Memory.read, hb]
      · rename_i _ hac
        simp only [Memory.read]
        rw [Memory.read_writeFrom hc.2.2.2]
        split
        · rename_i hb
          rw [if_neg (by omega)]
        · rfl

/-- A write keeps the canonical form. -/
theorem Memory.wfFrom_write {a : Nat} {u : Byte} (ha : a < Config.memSize) :
    ∀ {lo : Nat} {m : Memory}, lo ≤ a → Memory.wfFrom lo m = true →
      Memory.wfFrom lo (m.write a u) = true
  | lo, [], hlo, _ => Memory.wfFrom_consIf hlo ha rfl
  | lo, (c, w) :: m, hlo, hm => by
    have hc := Memory.wfFrom_cons.1 hm
    unfold Memory.write
    split
    · exact Memory.wfFrom_consIf hlo ha (Memory.wfFrom_cons.2 ⟨by omega, hc.2⟩)
    · split
      · rename_i _ hac
        subst hac
        exact Memory.wfFrom_consIf hlo ha hc.2.2.2
      · exact Memory.wfFrom_cons.2
          ⟨hc.1, hc.2.1, hc.2.2.1, Memory.wfFrom_write ha (by omega) hc.2.2.2⟩

theorem Memory.wf_write {m : Memory} {a : Nat} {u : Byte} (ha : a < Config.memSize)
    (hm : m.wf = true) : (m.write a u).wf = true :=
  Memory.wfFrom_write ha (Nat.zero_le _) hm

theorem Memory.wf_writeBytes :
    ∀ {bs : List Byte} {m : Memory} {a : Nat}, a + bs.length ≤ Config.memSize → m.wf = true →
      (m.writeBytes a bs).wf = true
  | [], _, _, _, hm => hm
  | b :: bs, m, a, h, hm => by
    simp only [List.length_cons] at h
    have hw : (m.write a b).wf = true := Memory.wf_write (by omega) hm
    exact Memory.wf_writeBytes (a := a + 1) (by omega) hw

/-- After writing bytes from `a` on, an address among them holds its byte and every other what it
held. -/
theorem Memory.read_writeBytes :
    ∀ {bs : List Byte} {m : Memory} {a : Nat} (b : Nat), a + bs.length ≤ Config.memSize →
      m.wf = true →
      (m.writeBytes a bs).read b
        = if a ≤ b ∧ b < a + bs.length then (bs[b - a]?).getD 0 else m.read b
  | [], m, a, b, _, _ => by simp [Memory.writeBytes]
  | c :: cs, m, a, b, h, hm => by
    simp only [List.length_cons] at h ⊢
    rw [Memory.writeBytes, Memory.read_writeBytes b (by omega) (Memory.wf_write (by omega) hm),
      Memory.read_writeFrom hm]
    by_cases hb : b = a
    · subst hb
      simp
    · by_cases hin : a + 1 ≤ b ∧ b < a + 1 + cs.length
      · have hge : a ≤ b ∧ b < a + (cs.length + 1) := by omega
        have hidx : b - a = (b - (a + 1)) + 1 := by omega
        rw [if_pos hin, if_pos hge, hidx, List.getElem?_cons_succ]
      · have hout : ¬(a ≤ b ∧ b < a + (cs.length + 1)) := by omega
        rw [if_neg hin, if_neg hb, if_neg hout]

@[simp] theorem Memory.length_readBytes (m : Memory) : ∀ (n a : Nat), (m.readBytes a n).length = n
  | 0, _ => rfl
  | n + 1, a => by simp [Memory.readBytes, Memory.length_readBytes m n]

theorem Memory.getElem?_readBytes (m : Memory) :
    ∀ (n a i : Nat), (m.readBytes a n)[i]? = if i < n then some (m.read (a + i)) else none
  | 0, _, _ => by simp [Memory.readBytes]
  | n + 1, a, 0 => by simp [Memory.readBytes]
  | n + 1, a, i + 1 => by
    simp only [Memory.readBytes, List.getElem?_cons_succ, Memory.getElem?_readBytes m n,
      Nat.add_lt_add_iff_right]
    rw [show a + 1 + i = a + (i + 1) by omega]

/-! ### The bounds check (R52, R247) -/

theorem firstOutOfRange_eq_none {a n : Nat} :
    firstOutOfRange a n = none ↔ n = 0 ∨ a + n ≤ Config.memSize := by
  induction n generalizing a with
  | zero => simp [firstOutOfRange]
  | succ n ih =>
    unfold firstOutOfRange
    split
    · rw [ih]; omega
    · simp; omega

/-- The address reported is the lowest out of range: the first one, or the first past the end. -/
theorem firstOutOfRange_eq_some {a n b : Nat} :
    firstOutOfRange a n = some b ↔
      n ≠ 0 ∧ Config.memSize < a + n ∧ b = max a Config.memSize := by
  induction n generalizing a with
  | zero => simp [firstOutOfRange]
  | succ n ih =>
    unfold firstOutOfRange
    split
    · rw [ih]; omega
    · simp; omega

theorem checkRange_of_le {σ : Type} {a n : Nat} {k : Host.Outcome σ Fault Refusal}
    (h : n = 0 ∨ a + n ≤ Config.memSize) : checkRange a n k = k := by
  simp [checkRange, firstOutOfRange_eq_none.2 h]

theorem checkRange_of_gt {σ : Type} {a n : Nat} {k : Host.Outcome σ Fault Refusal}
    (hn : n ≠ 0) (h : Config.memSize < a + n) :
    checkRange a n k = .fault (.memoryOutOfBounds (max a Config.memSize)) := by
  simp [checkRange, firstOutOfRange_eq_some.2 ⟨hn, h, rfl⟩, raise]

/-- Everything a range check can do: go on with every address in range, or raise the one fault. -/
theorem checkRange_cases {σ : Type} (a n : Nat) (k : Host.Outcome σ Fault Refusal) :
    ((n = 0 ∨ a + n ≤ Config.memSize) ∧ checkRange a n k = k) ∨
    (n ≠ 0 ∧ Config.memSize < a + n ∧
      checkRange a n k = .fault (.memoryOutOfBounds (max a Config.memSize))) := by
  by_cases hn : n = 0
  · exact .inl ⟨.inl hn, checkRange_of_le (.inl hn)⟩
  · by_cases h : a + n ≤ Config.memSize
    · exact .inl ⟨.inr h, checkRange_of_le (.inr h)⟩
    · exact .inr ⟨hn, by omega, checkRange_of_gt hn (by omega)⟩

/-- Memory at reset is in canonical form. -/
theorem reset_mem_wf : State.reset.mem.wf = true := rfl

end Sys2Proof.Machine
end

