-- ==== Sys2Proof/Laws/Ops.lean ====
section
/-! SUPPORT. For each shared operation, once, everything it can do. -/

namespace Sys2Proof.Machine

@[simp] theorem raise_eq_fault {σ : Type} (f : Fault) :
    (raise f : Host.Outcome σ Fault Refusal) = .fault f := rfl

/-! ### The call stack (R28) -/

theorem push_of_room {s : State} (h : s.sp < Config.stackDepth) (a : Word)
    (k : State → Host.Outcome State Fault Refusal) :
    push s a k = k { s with stack := a :: s.stack } := by
  unfold push
  rw [if_neg (by omega)]

theorem push_of_full {s : State} (h : Config.stackDepth ≤ s.sp) (a : Word)
    (k : State → Host.Outcome State Fault Refusal) :
    push s a k = .fault (.stackOverflow s.pc) := by
  unfold push
  rw [if_pos h]
  rfl

/-- A push raises, or goes on with the entry on top. -/
theorem push_cases (s : State) (a : Word) (k : State → Host.Outcome State Fault Refusal) :
    (Config.stackDepth ≤ s.sp ∧ push s a k = .fault (.stackOverflow s.pc)) ∨
    (s.sp < Config.stackDepth ∧ push s a k = k { s with stack := a :: s.stack }) := by
  by_cases h : Config.stackDepth ≤ s.sp
  · exact .inl ⟨h, push_of_full h a k⟩
  · exact .inr ⟨by omega, push_of_room (by omega) a k⟩

/-- A pop raises, or goes on with the top entry off. -/
theorem pop_cases (s : State) (k : Word → State → Host.Outcome State Fault Refusal) :
    (s.stack = [] ∧ pop s k = .fault (.stackUnderflow s.pc)) ∨
    (∃ a rest, s.stack = a :: rest ∧ pop s k = k a { s with stack := rest }) := by
  unfold pop
  cases h : s.stack with
  | nil => exact .inl ⟨rfl, rfl⟩
  | cons a rest => exact .inr ⟨a, rest, rfl, rfl⟩

theorem stackEntry_cons (s : State) (a : Word) (n : Nat) :
    State.stackEntry { s with stack := a :: s.stack } n
      = if n = s.sp then some a else s.stackEntry n := by
  simp only [State.stackEntry, State.sp, List.reverse_cons, List.getElem?_append,
    List.length_reverse]
  split
  · rw [if_neg (by omega)]
  · split
    · rename_i h; simp [h]
    · rename_i h h'
      rw [List.getElem?_eq_none (by simp; omega), List.getElem?_eq_none (by simp; omega)]

/-! ### Fetch, decode and the call (R100, R101) -/

theorem fetch_of_lt {σ : Type} {s : State} (h : s.pc.toNat + 1 < Config.memSize)
    (k : Word → Host.Outcome σ Fault Refusal) : fetch s k = k s.wordAtPC :=
  checkRange_of_le (.inr (by omega))

theorem fetch_of_ge {σ : Type} {s : State} (h : Config.memSize ≤ s.pc.toNat + 1)
    (k : Word → Host.Outcome σ Fault Refusal) :
    fetch s k = .fault (.memoryOutOfBounds (max s.pc.toNat Config.memSize)) :=
  checkRange_of_gt (by omega) (by omega)

theorem decodeThen_ok {σ : Type} {w : Word} {i : Instr} (h : decode w = .ok i)
    (k : Instr → Host.Outcome σ Fault Refusal) : decodeThen w k = k i := by
  simp [decodeThen, h]

theorem decodeThen_error {σ : Type} {w : Word} {e : DecodeError} (h : decode w = .error e)
    (k : Instr → Host.Outcome σ Fault Refusal) :
    decodeThen w k = .fault (.unknownOpcode w) := by
  simp [decodeThen, h]

/-- A blocked wait-for-key changes nothing but the note of the wait; a completed one clears it. -/
theorem execLdVxK_cases (x : Reg) (s : State) :
    (s.keyWait = .pending ∧ execLdVxK x s = .next s.noteWait) ∨
    (∃ k, s.keyWait = .key k ∧
      execLdVxK x s = .next (({ s with waiting := false } : State).writeV x k).advance) ∨
    (∃ e, s.keyWait = .error e ∧ execLdVxK x s = .fault (.inputSourceError e)) := by
  unfold execLdVxK
  cases h : s.keyWait with
  | pending => exact .inl ⟨rfl, rfl⟩
  | key k => exact .inr (.inl ⟨k, rfl, rfl⟩)
  | error e => exact .inr (.inr ⟨e, rfl, rfl⟩)

theorem isKeyWait_iff {i : Instr} : isKeyWait i = true ↔ ∃ x, i = .ldVxK x := by
  cases i <;> simp [isKeyWait]

/-- Everything the end of an executed call can be (R8): `Blocked` at a wait-for-key with no key pending,
else `Ok` with the instruction's next state, or its fault or refusal. -/
theorem endOfCall_exec_cases (i : Instr) (s : State) :
    (∃ x, i = .ldVxK x ∧ s.keyWait = .pending ∧ exec i s = .next s.noteWait ∧
      endOfCall i (exec i s) = .next .blocked) ∨
    ((∀ x, i = .ldVxK x → s.keyWait ≠ .pending) ∧
      ((∃ t, exec i s = .next t ∧ endOfCall i (exec i s) = .next (.ok t)) ∨
        (∃ f, exec i s = .fault f ∧ endOfCall i (exec i s) = .fault f) ∨
        ∃ r, exec i s = .refused r ∧ endOfCall i (exec i s) = .refused r)) := by
  by_cases hi : isKeyWait i = true
  · obtain ⟨x, rfl⟩ := isKeyWait_iff.1 hi
    have hx : exec (.ldVxK x) s = execLdVxK x s := rfl
    rw [hx]
    obtain ⟨hk, he⟩ | ⟨k, hk, he⟩ | ⟨e, hk, he⟩ := execLdVxK_cases x s <;> rw [he]
    · exact .inl ⟨x, rfl, hk, rfl, rfl⟩
    · exact .inr ⟨by simp [hk], .inl ⟨_, rfl, rfl⟩⟩
    · exact .inr ⟨by simp [hk], .inr (.inl ⟨_, rfl, rfl⟩)⟩
  · refine .inr ⟨fun x hx => absurd (isKeyWait_iff.2 ⟨x, hx⟩) hi, ?_⟩
    cases exec i s with
    | next t => exact .inl ⟨t, rfl, by simp [endOfCall, hi]⟩
    | fault f => exact .inr (.inl ⟨f, rfl, rfl⟩)
    | refused r => exact .inr (.inr ⟨r, rfl, rfl⟩)

/-- The host's interface shows of an executed call what `exec` answers. -/
@[simp] theorem shown_endOfCall (i : Instr) (s : State) :
    s.shown (endOfCall i (exec i s)) = exec i s := by
  obtain ⟨-, -, -, he, hc⟩ | ⟨-, ⟨t, he, hc⟩ | ⟨f, he, hc⟩ | ⟨r, he, hc⟩⟩ :=
    endOfCall_exec_cases i s <;> rw [hc, he] <;> rfl

theorem endOfCall_eq_fault {i : Instr} {o : Host.Outcome State Fault Refusal} {f : Fault} :
    endOfCall i o = .fault f ↔ o = .fault f := by
  cases o with
  | next t => simp only [endOfCall]; split <;> simp
  | fault g => simp [endOfCall]
  | refused r => simp [endOfCall]

/-- Everything one call of `execute_one` can do: answer the fault that ended the run, fault at fetch,
fault at decode, or execute and end as `endOfCall` says. -/
theorem executeOne_cases (s : State) :
    (∃ f, s.fault = some f ∧ executeOne s = .fault f) ∨
    (s.fault = none ∧ Config.memSize ≤ s.pc.toNat + 1 ∧
      executeOne s = .fault (.memoryOutOfBounds (max s.pc.toNat Config.memSize))) ∨
    (s.fault = none ∧ s.pc.toNat + 1 < Config.memSize ∧ (∃ e, decode s.wordAtPC = .error e) ∧
      executeOne s = .fault (.unknownOpcode s.wordAtPC)) ∨
    (∃ i, s.fault = none ∧ s.pc.toNat + 1 < Config.memSize ∧ decode s.wordAtPC = .ok i ∧
      executeOne s = endOfCall i (exec i s)) := by
  unfold executeOne callWith
  cases hf : s.fault with
  | some f => exact .inl ⟨f, rfl, rfl⟩
  | none =>
    by_cases h : s.pc.toNat + 1 < Config.memSize
    · rw [fetch_of_lt h]
      cases hd : decode s.wordAtPC with
      | ok i => exact .inr (.inr (.inr ⟨i, rfl, h, rfl, decodeThen_ok hd _⟩))
      | error e => exact .inr (.inr (.inl ⟨rfl, h, ⟨e, rfl⟩, decodeThen_error hd _⟩))
    · exact .inr (.inl ⟨rfl, by omega, fetch_of_ge (by omega) _⟩)

theorem finishTurn_eq_next {o : Host.Outcome State Fault Refusal} {t : State} :
    finishTurn o = .next t ↔ ∃ u, o = .next u ∧ t = u.endTurn := by
  cases o <;> simp [finishTurn, eq_comm]

/-- A step that answers a next state executed one instruction between the two halves of the host's
turn. -/
theorem step_eq_next {s t : State} (h : step s = .next t) :
    ∃ i u, s.fault = none ∧ s.pc.toNat + 1 < Config.memSize ∧ decode s.wordAtPC = .ok i ∧
      exec i s.beginTurn = .next u ∧ t = u.endTurn := by
  obtain ⟨u, hu, rfl⟩ := finishTurn_eq_next.1 h
  obtain ⟨f, -, he⟩ | ⟨-, -, he⟩ | ⟨-, -, -, he⟩ | ⟨i, hf, hpc, hd, he⟩ :=
    executeOne_cases s.beginTurn
  · rw [he] at hu; cases hu
  · rw [he] at hu; cases hu
  · rw [he] at hu; cases hu
  · rw [he, shown_endOfCall] at hu
    exact ⟨i, u, hf, hpc, hd, hu, rfl⟩

/-! ### Timers (R258) -/

theorem timerAfter_toNat (n : Nat) (t : Byte) : (timerAfter n t).toNat = t.toNat - n := by
  unfold timerAfter
  split
  · rename_i h; simp [h]
  · have := t.isLt
    rw [BitVec.toNat_ofNat, Nat.mod_eq_of_lt (by omega)]

theorem tick_toNat (t : Byte) : (tick t).toNat = t.toNat - 1 := by
  unfold tick
  split
  · rename_i h; simp [h]
  · rename_i h
    have h0 : t.toNat ≠ 0 := fun e => h (BitVec.eq_of_toNat_eq (by simpa using e))
    have := t.isLt
    rw [BitVec.toNat_sub]
    simp
    omega

/-! ### Index arithmetic -/

theorem writeI_toNat (s : State) (a : Word) : (s.writeI a).idx.toNat = a.toNat % 4096 := by
  rw [writeI_idx, BitVec.toNat_and]
  exact Nat.and_two_pow_sub_one_eq_mod a.toNat 12

theorem dataAddr_eq (s : State) (k : Nat) : dataAddr s k = dataAddr s 0 + k := by
  simp [dataAddr]

@[simp] theorem length_regsUpTo (s : State) (x : Reg) : (regsUpTo s x).length = x.val + 1 := by
  have := x.isLt
  simp [regsUpTo]

theorem getElem?_regsUpTo (s : State) (x k : Reg) (h : k ≤ x) :
    (regsUpTo s x)[k.val]? = some (s.readV k) := by
  have hk : k.val < x.val + 1 := Nat.lt_succ_of_le h
  simp [regsUpTo, State.readV, hk]

/-- Storing at `I` raises, or writes the bytes and advances. -/
theorem storeAtI_cases (s : State) (bs : List Byte) :
    ((bs.length = 0 ∨ dataAddr s 0 + bs.length ≤ Config.memSize) ∧
      storeAtI s bs = .next (State.advance { s with mem := s.mem.writeBytes (dataAddr s 0) bs })) ∨
    (bs.length ≠ 0 ∧ Config.memSize < dataAddr s 0 + bs.length ∧
      storeAtI s bs = .fault (.memoryOutOfBounds (max (dataAddr s 0) Config.memSize))) :=
  checkRange_cases _ _ _

end Sys2Proof.Machine
end

