-- ==== Sys2Proof/Laws/Display.lean ====
section
/-! SUPPORT. The bits of a sprite row's mask, and the compositor one row at a time. -/

namespace Sys2Proof.Machine

theorem pixelMask_getLsbD (b : Byte) (x0 j c : Nat) (hc : c < 64) :
    (pixelMask b x0 j).getLsbD c = (decide (c = (x0 + j) % 64) && b.getLsbD (7 - j)) := by
  have hm : (x0 + j) % 64 < 64 := Nat.mod_lt _ (by decide)
  simp only [pixelMask, BitVec.getLsbD_shiftLeft, BitVec.getLsbD_setWidth, BitVec.getLsbD_and,
    BitVec.getLsbD_ushiftRight, BitVec.getLsbD_one, hc]
  by_cases h : c = (x0 + j) % 64
  · subst h; simp
  · by_cases hlt : c < (x0 + j) % 64
    · simp [hlt, h]
    · have : c - (x0 + j) % 64 ≠ 0 := by omega
      simp [h, this]

/-- A pixel of the mask: column `c` shows pixel `(c - x0) mod 64` of the byte, bit `7` leftmost
(R216). -/
theorem rowMask_getLsbD (b : Byte) (x0 c : Nat) (hx : x0 < 64) (hc : c < 64) :
    (rowMask b x0).getLsbD c
      = (decide ((c + (64 - x0)) % 64 < 8) && b.getLsbD (7 - (c + (64 - x0)) % 64)) := by
  have hr : List.range 8 = [0, 1, 2, 3, 4, 5, 6, 7] := rfl
  simp only [rowMask, hr, List.foldl_cons, List.foldl_nil, BitVec.getLsbD_or]
  rw [pixelMask_getLsbD b x0 0 c hc, pixelMask_getLsbD b x0 1 c hc,
    pixelMask_getLsbD b x0 2 c hc, pixelMask_getLsbD b x0 3 c hc,
    pixelMask_getLsbD b x0 4 c hc, pixelMask_getLsbD b x0 5 c hc,
    pixelMask_getLsbD b x0 6 c hc, pixelMask_getLsbD b x0 7 c hc]
  have key : ∀ j, j < 8 → (c = (x0 + j) % 64 ↔ (c + (64 - x0)) % 64 = j) := by
    intro j hj; omega
  simp only [key 0 (by decide), key 1 (by decide), key 2 (by decide), key 3 (by decide),
    key 4 (by decide), key 5 (by decide), key 6 (by decide), key 7 (by decide)]
  by_cases hlt : (c + (64 - x0)) % 64 < 8
  · generalize (c + (64 - x0)) % 64 = k at hlt ⊢
    have : k = 0 ∨ k = 1 ∨ k = 2 ∨ k = 3 ∨ k = 4 ∨ k = 5 ∨ k = 6 ∨ k = 7 := by omega
    rcases this with h | h | h | h | h | h | h | h <;> subst h <;> simp
  · have hne : ∀ j, j < 8 → (c + (64 - x0)) % 64 ≠ j := fun j hj => by omega
    simp [hlt, hne 0, hne 1, hne 2, hne 3, hne 4, hne 5, hne 6, hne 7]

theorem row_set (d : Display) (r q : Fin 32) (m : Row) :
    Display.row (d.set r.val m) q = if q = r then m else d.row q := by
  by_cases h : q = r
  · subst h; simp [Display.row]
  · have : r.val ≠ q.val := fun e => h (Fin.ext e.symm)
    simp [Display.row, this, h]

@[simp] theorem row_clear (r : Fin 32) : Display.clear.row r = 0 := by
  simp [Display.row, Display.clear]

/-- Two displays with the same rows are the same. -/
theorem display_ext {d e : Display} (h : ∀ r, d.row r = e.row r) : d = e := by
  apply Vector.ext
  intro i hi
  exact h ⟨i, hi⟩

theorem compositeFrom_cons (x0 y0 i : Nat) (b : Byte) (bs : List Byte) (d : Display) (c : Bool) :
    compositeFrom x0 y0 i (b :: bs) d c
      = compositeFrom x0 y0 (i + 1) bs
          (d.set (targetRow y0 i).val (d.row (targetRow y0 i) ^^^ rowMask b x0))
          (c || (d.row (targetRow y0 i) &&& rowMask b x0) != 0) :=
  rfl

@[simp] theorem compositeFrom_nil (x0 y0 i : Nat) (d : Display) (c : Bool) :
    compositeFrom x0 y0 i [] d c = (d, c) := rfl

/-- Everything the compositor's loop can do, pixel by pixel (R212 to R217): each row of the display takes the
XOR of the mask of the sprite row that falls on it, and a collision is a pixel on before and in the mask. -/
theorem compositeFrom_bits (x0 y0 : Nat) (hx : x0 < 64) (bs : List Byte) :
    ∀ (i : Nat) (d : Display) (coll : Bool), bs.length ≤ 32 →
      (∀ (r : Fin 32) (c : Nat), c < 64 → ((compositeFrom x0 y0 i bs d coll).1.row r).getLsbD c =
        ((d.row r).getLsbD c ^^
          (rowMask ((bs[(r.val + (32 - (y0 + i) % 32)) % 32]?).getD 0) x0).getLsbD c)) ∧
      ((compositeFrom x0 y0 i bs d coll).2 = true ↔ coll = true ∨
        ∃ (r : Fin 32) (c : Nat), c < 64 ∧ (d.row r).getLsbD c = true ∧
          (rowMask ((bs[(r.val + (32 - (y0 + i) % 32)) % 32]?).getD 0) x0).getLsbD c = true) := by
  have hz : ∀ c, c < 64 → (rowMask 0 x0).getLsbD c = false := by
    intro c hc; rw [rowMask_getLsbD _ _ _ hx hc]; simp
  induction bs with
  | nil =>
    intro i d coll _
    constructor
    · intro r c hc
      have := hz c hc
      simp_all
    · simp only [compositeFrom_nil]
      constructor
      · exact .inl
      · rintro (h | ⟨r, c, hc, -, h⟩)
        · exact h
        · have := hz c hc
          simp_all
  | cons b bs ih =>
    intro i d coll hl
    simp only [List.length_cons] at hl
    rw [compositeFrom_cons]
    obtain ⟨ih1, ih2⟩ := ih (i+1) (d.set (targetRow y0 i).val (d.row (targetRow y0 i) ^^^ rowMask b x0)) (coll || (d.row (targetRow y0 i) &&& rowMask b x0) != 0) (by omega)
    have hself : ∀ r : Fin 32, r = targetRow y0 i → (r.val + (32 - (y0 + i) % 32)) % 32 = 0 ∧ (r.val + (32 - (y0 + (i+1)) % 32)) % 32 = 31 := by
      rintro r rfl; simp only [targetRow]; omega
    have hother : ∀ r : Fin 32, r ≠ targetRow y0 i → (r.val + (32 - (y0 + i) % 32)) % 32 = (r.val + (32 - (y0 + (i+1)) % 32)) % 32 + 1 := by
      intro r hr
      have : r.val ≠ (y0 + i) % 32 := fun e => hr (Fin.ext e)
      have := r.isLt
      omega
    have hlook : ∀ r : Fin 32, ((b :: bs)[(r.val + (32 - (y0 + i) % 32)) % 32]?).getD 0 = if r = targetRow y0 i then b else (bs[(r.val + (32 - (y0 + (i+1)) % 32)) % 32]?).getD 0 := by
      intro r
      split
      · rename_i h; rw [(hself r h).1]; rfl
      · rename_i h; rw [hother r h]; simp
    have hpast : ∀ r : Fin 32, r = targetRow y0 i → (bs[(r.val + (32 - (y0 + (i+1)) % 32)) % 32]?).getD 0 = 0 := by
      intro r h; rw [(hself r h).2, List.getElem?_eq_none (by omega)]; rfl
    constructor
    · intro r c hc
      rw [ih1 r c hc, row_set, hlook]
      by_cases h : r = targetRow y0 i
      · rw [hpast r h, if_pos h, if_pos h, hz c hc, h]; simp
      · rw [if_neg h, if_neg h]
    · rw [ih2]
      have hrow : (d.row (targetRow y0 i) &&& rowMask b x0) != 0 ↔ ∃ c, c < 64 ∧ (d.row (targetRow y0 i)).getLsbD c = true ∧ (rowMask b x0).getLsbD c = true := by
        constructor
        · intro h
          by_contra hn
          push Not at hn
          have : (d.row (targetRow y0 i) &&& rowMask b x0) = 0 := by
            apply BitVec.eq_of_getLsbD_eq
            intro c hc
            have := hn c hc
            rw [BitVec.getLsbD_and]
            simp
            simpa using this
          simp [this] at h
        · rintro ⟨c, hc, h1, h2⟩
          simp only [bne_iff_ne, ne_eq]
          intro h
          have := congrArg (fun z => BitVec.getLsbD z c) h
          simp [h1, h2] at this
      simp only [Bool.or_eq_true, hrow]
      constructor
      · rintro ((h | ⟨c, hc, h1, h2⟩) | ⟨r, c, hc, h1, h2⟩)
        · exact .inl h
        · exact .inr ⟨targetRow y0 i, c, hc, h1, by rw [hlook, if_pos rfl]; exact h2⟩
        · refine .inr ⟨r, c, hc, ?_⟩
          rw [hlook]
          by_cases h : r = targetRow y0 i
          · rw [hpast r h, hz c hc] at h2; cases h2
          · rw [row_set, if_neg h] at h1; rw [if_neg h]; exact ⟨h1, h2⟩
      · rintro (h | ⟨r, c, hc, h1, h2⟩)
        · exact .inl (.inl h)
        · rw [hlook] at h2
          by_cases h : r = targetRow y0 i
          · rw [if_pos h] at h2; subst h; exact .inl (.inr ⟨c, hc, h1, h2⟩)
          · rw [if_neg h] at h2
            exact .inr ⟨r, c, hc, by rw [row_set, if_neg h]; exact h1, h2⟩

end Sys2Proof.Machine
end

