-- ==== Sys2Proof/Laws/Exec.lean ====
section
/-! SUPPORT. What one instruction can do, said once; frames from field equalities; runs one step at a
time. -/

namespace Sys2Proof.Machine

/-! ### Operands and ranges -/

theorem addrImm_toNat (nnn : BitVec 12) : (addrImm nnn).toNat = nnn.toNat := by
  have := nnn.isLt
  rw [addrImm, BitVec.toNat_setWidth, Nat.mod_eq_of_lt (by omega)]

/-- The lowest address out of range is the one the check raises (R247). -/
theorem range_fault {σ : Type} {a n b : Nat} {k : Host.Outcome σ Fault Refusal}
   (h : b ∈ List.range' a n) (hb : Config.memSize ≤ b)
   (hmin : ∀ c ∈ List.range' a n, c < b → c < Config.memSize) : checkRange a n k = .fault (.memoryOutOfBounds b) := by
  rw [List.mem_range'_1] at h
  rw [checkRange_of_gt (by omega) (by omega)]
  congr 2
  by_cases hab : a = b
  · omega
  · have := hmin (b-1) (by rw [List.mem_range'_1]; omega) (by omega)
    omega

/-! ### Frames -/

/-- A frame from the equality of each field. -/
theorem frame_of {regs parts addrs} {s t : State}
  (h1 : ∀ r, r ∉ regs → t.readV r = s.readV r)
  (hi : .idx ∉ parts → t.idx = s.idx) (hk : .stack ∉ parts → t.stack = s.stack)
  (hd : .dt ∉ parts → t.dt = s.dt) (hs : .st ∉ parts → t.st = s.st)
  (hp : .disp ∉ parts → t.disp = s.disp) (hw : .waiting ∉ parts → t.waiting = s.waiting)
  (hm : ∀ a, a ∉ addrs → t.mem.read a = s.mem.read a)
  (hf : t.fault = s.fault) (hh : t.host = s.host) (ht : t.turns = s.turns) : Frame regs parts addrs s t := by
  refine ⟨h1, ?_, hm, hf, hh, ht⟩
  intro p hp'
  cases p <;> simp [Part.Kept] <;> solve_by_elim

theorem frame_writePC (s : State) (a : Word) : Frame [] [] [] s (s.writePC a) := by
  apply frame_of <;> simp

theorem frame_writeV (s : State) (x : Reg) (b : Byte) : Frame [x] [] [] s (s.writeV x b).advance := by
  apply frame_of <;> simp
  intro r hr
  rw [readV_writeV, if_neg hr]

/-! ### What an instruction can do -/

/-- Everything an instruction that completes can do, with its guards: the ways a next state comes about. -/
theorem exec_cases {i : Instr} {s t : State} (h : exec i s = .next t) :
    (∃ x b, t = (s.writeV x b).advance ∧
      ((∃ kk, i = .ldImm x kk ∨ i = .addImm x kk ∨ i = .rnd x kk) ∨
        (∃ y, i = .ldReg x y ∨ i = .orReg x y ∨ i = .andReg x y ∨ i = .xorReg x y) ∨
        i = .ldVxDT x)) ∨
    (∃ x y b f, t = (s.writeWithFlag x b f).advance ∧
      (i = .addReg x y ∨ i = .sub x y ∨ i = .subn x y ∨ i = .shr x y ∨ i = .shl x y)) ∨
    (∃ a, t = s.writePC a ∧ (∃ x y kk nnn, i = .jp nnn ∨ i = .jpV0 nnn ∨ i = .seImm x kk ∨
      i = .sneImm x kk ∨ i = .seReg x y ∨ i = .sneReg x y ∨ i = .skp x ∨ i = .sknp x)) ∨
    (∃ a, t = (s.writeI a).advance ∧ (∃ nnn x, i = .ldI nnn ∨ i = .addI x ∨ i = .ldF x)) ∨
    (∃ m a bs x, t = { s with mem := m }.advance ∧ m = s.mem.writeBytes a bs ∧
      a + bs.length ≤ Config.memSize ∧ (i = .ldB x ∨ i = .ldMemVx x)) ∨
    (∃ x, t = (loadRegsUpTo s x).advance ∧ i = .ldVxMem x) ∨
    (∃ x, t = State.advance { s with dt := s.readV x } ∧ i = .ldDTVx x) ∨
    (∃ x, t = State.advance { s with st := s.readV x } ∧ i = .ldSTVx x) ∨
    (∃ x, s.keyWait = .pending ∧ t = s.noteWait ∧ i = .ldVxK x) ∨
    (∃ x k, s.keyWait = .key k ∧
      t = (({ s with waiting := false } : State).writeV x k).advance ∧ i = .ldVxK x) ∨
    (t = State.advance { s with disp := Display.clear } ∧ i = .cls) ∨
    (∃ x y n rows, t = (drawSprite s x y rows).advance ∧ i = .drw x y n) ∨
    (∃ nnn, s.sp < Config.stackDepth ∧
      t = State.writePC { s with stack := (s.pc + 2) :: s.stack } (addrImm nnn) ∧ i = .call nnn) ∨
    (∃ a rest, s.stack = a :: rest ∧ t = State.writePC { s with stack := rest } a ∧ i = .ret) := by
  cases i
  case ret =>
    simp only [exec, execRet] at h
    obtain ⟨-, hp⟩ | ⟨a, r, hs, hp⟩ := pop_cases s (fun a t => .next (t.writePC a)) <;> rw [hp] at h <;> cases h
    simp [hs]
  case call nnn =>
    simp only [exec, execCall] at h
    obtain ⟨-, hp⟩ | ⟨hs, hp⟩ := push_cases s (s.pc+2) (fun t => .next (t.writePC (addrImm nnn))) <;> rw [hp] at h <;> cases h
    simp [hs]
  case ldVxK x =>
    simp only [exec, execLdVxK, blocked] at h
    split at h <;> cases h
    · rename_i hk; simp [hk]
    · rename_i hk; simp [hk]
  case ldB x =>
    simp only [exec, execLdB] at h
    obtain ⟨hl, hp⟩ | ⟨-, -, hp⟩ := storeAtI_cases s (bcdDigits (s.readV x)) <;> rw [hp] at h <;> cases h
    refine .inr (.inr (.inr (.inr (.inl ⟨_, _, _, x, rfl, rfl, ?_, by simp⟩))))
    rcases hl with hl | hl
    · simp [bcdDigits] at hl
    · exact hl
  case ldMemVx x =>
    simp only [exec, execLdMemVx] at h
    obtain ⟨hl, hp⟩ | ⟨-, -, hp⟩ := storeAtI_cases s (regsUpTo s x) <;> rw [hp] at h <;> cases h
    refine .inr (.inr (.inr (.inr (.inl ⟨_, _, _, x, rfl, rfl, ?_, by simp⟩))))
    rcases hl with hl | hl
    · simp at hl
    · exact hl
  case ldVxMem x =>
    simp only [exec, execLdVxMem] at h
    obtain ⟨-, hp⟩ | ⟨-, -, hp⟩ := checkRange_cases (dataAddr s 0) (x.val + 1) (.next (loadRegsUpTo s x).advance) <;> rw [hp] at h <;> cases h
    simp
  case drw x y n =>
    simp only [exec, execDrw] at h
    obtain ⟨-, hp⟩ | ⟨-, -, hp⟩ := checkRange_cases (dataAddr s 0) n (.next (drawSprite s x y (s.mem.readBytes (dataAddr s 0) n)).advance) <;> rw [hp] at h <;> cases h
    simp
    exact ⟨_, rfl⟩
  case cls => cases h; simp [Display.clear]
  all_goals (cases h)
  case ldImm x kk => exact .inl ⟨x, _, rfl, by simp⟩
  case addImm x kk => exact .inl ⟨x, _, rfl, by simp⟩
  case rnd x kk => exact .inl ⟨x, _, rfl, by simp⟩
  case ldReg x y => exact .inl ⟨x, _, rfl, by simp⟩
  case orReg x y => exact .inl ⟨x, _, rfl, by simp⟩
  case andReg x y => exact .inl ⟨x, _, rfl, by simp⟩
  case xorReg x y => exact .inl ⟨x, _, rfl, by simp⟩
  case ldVxDT x => exact .inl ⟨x, _, rfl, by simp⟩
  case addReg x y => exact .inr (.inl ⟨x, y, _, _, rfl, by simp⟩)
  case sub x y => exact .inr (.inl ⟨x, y, _, _, rfl, by simp⟩)
  case subn x y => exact .inr (.inl ⟨x, y, _, _, rfl, by simp⟩)
  case shr x y => exact .inr (.inl ⟨x, y, _, _, rfl, by simp⟩)
  case shl x y => exact .inr (.inl ⟨x, y, _, _, rfl, by simp⟩)
  case jp n => exact .inr (.inr (.inl ⟨_, rfl, by simp⟩))
  case jpV0 n => exact .inr (.inr (.inl ⟨_, rfl, by simp⟩))
  case seImm => exact .inr (.inr (.inl ⟨_, rfl, by simp⟩))
  case sneImm => exact .inr (.inr (.inl ⟨_, rfl, by simp⟩))
  case seReg => exact .inr (.inr (.inl ⟨_, rfl, by simp⟩))
  case sneReg => exact .inr (.inr (.inl ⟨_, rfl, by simp⟩))
  case skp => exact .inr (.inr (.inl ⟨_, rfl, by simp⟩))
  case sknp => exact .inr (.inr (.inl ⟨_, rfl, by simp⟩))
  case ldI => exact .inr (.inr (.inr (.inl ⟨_, rfl, by simp⟩)))
  case addI => exact .inr (.inr (.inr (.inl ⟨_, rfl, by simp⟩)))
  case ldF => exact .inr (.inr (.inr (.inl ⟨_, rfl, by simp⟩)))
  case ldDTVx x => simp
  case ldSTVx x => simp

/-! ### Runs -/

theorem run_next {n : Nat} {s t : State} (h : step s = .next t) : Host.Core.run Sys2Proof.core (n+1) s = Host.Core.run Sys2Proof.core n t := by
  have h' : Sys2Proof.core.step s = .next t := h
  simp only [Host.Core.run]; rw [h']
theorem run_fault {n : Nat} {s : State} {f} (h : step s = .fault f) : Host.Core.run Sys2Proof.core (n+1) s = .fault f := by
  have h' : Sys2Proof.core.step s = .fault f := h
  simp only [Host.Core.run]; rw [h']
theorem run_refused {n : Nat} {s : State} {f} (h : step s = .refused f) : Host.Core.run Sys2Proof.core (n+1) s = .refused f := by
  have h' : Sys2Proof.core.step s = .refused f := h
  simp only [Host.Core.run]; rw [h']

end Sys2Proof.Machine
end

