-- ==== Sys2Proof/Laws/PerInstr.lean ====
section
/-! SUPPORT. The family FollowsTable, one lemma per instruction: the encoder gives every instruction the
fixed bits of its row of spec/opcode_table.json. -/

namespace Sys2Proof.Laws.FollowsTable

/-- Under the row's mask, the instruction's word is the row's match. -/
def Statement (i : Instr) : Prop := encode i &&& (opcodeRow i).2 = (opcodeRow i).1

theorem fmtNNN_and (o m : BitVec 4) (a b : BitVec 12) :
    fmtNNN o a &&& fmtNNN m b = fmtNNN (o &&& m) (a &&& b) :=
  BitVec.and_append (x₁ := o) (x₂ := m) (y₁ := a) (y₂ := b)

theorem append3_and {a b c : Nat} (o m : BitVec a) (x y : BitVec b) (k l : BitVec c) :
    (o ++ x ++ k) &&& (m ++ y ++ l) = (o &&& m) ++ (x &&& y) ++ (k &&& l) := by
  rw [BitVec.and_append, BitVec.and_append]

theorem append4_and {a b c d : Nat} (o m : BitVec a) (x y : BitVec b) (k l : BitVec c)
    (p q : BitVec d) :
    (o ++ x ++ k ++ p) &&& (m ++ y ++ l ++ q) = (o &&& m) ++ (x &&& y) ++ (k &&& l) ++ (p &&& q) := by
  rw [BitVec.and_append, append3_and]

/-- Rows whose mask is 0xF000: the group is fixed, everything else an operand. -/
theorem nnn_row (o : BitVec 4) (nnn : BitVec 12) : fmtNNN o nnn &&& 0xF000#16 = fmtNNN o 0 := by
  have h := fmtNNN_and o (BitVec.allOnes 4) nnn 0#12
  rw [BitVec.and_allOnes, BitVec.and_zero] at h
  exact h

theorem xkk_row (o : BitVec 4) (x : Reg) (kk : Byte) :
    fmtXKK o x kk &&& 0xF000#16 = fmtXKK o 0 0 := by
  have h := append3_and o (BitVec.allOnes 4) (bitsOfReg x) 0#4 kk 0#8
  rw [BitVec.and_allOnes, BitVec.and_zero, BitVec.and_zero] at h
  exact h

theorem xyn_row (o : BitVec 4) (x y : Reg) (n : BitVec 4) :
    fmtXYN o x y n &&& 0xF000#16 = fmtXYN o 0 0 0 := by
  have h := append4_and o (BitVec.allOnes 4) (bitsOfReg x) 0#4 (bitsOfReg y) 0#4 n 0#4
  rw [BitVec.and_allOnes, BitVec.and_zero, BitVec.and_zero, BitVec.and_zero] at h
  exact h

/-- Rows whose mask is 0xF00F: the group and the low nibble are fixed. -/
theorem xys_row (o : BitVec 4) (x y : Reg) (n : BitVec 4) :
    fmtXYN o x y n &&& 0xF00F#16 = fmtXYN o 0 0 n := by
  have h := append4_and o (BitVec.allOnes 4) (bitsOfReg x) 0#4 (bitsOfReg y) 0#4 n (BitVec.allOnes 4)
  rw [BitVec.and_allOnes, BitVec.and_zero, BitVec.and_zero, BitVec.and_allOnes] at h
  exact h

/-- Rows whose mask is 0xF0FF: the group and the low byte are fixed. -/
theorem xs_row (o : BitVec 4) (x : Reg) (kk : Byte) :
    fmtXKK o x kk &&& 0xF0FF#16 = fmtXKK o 0 kk := by
  have h := append3_and o (BitVec.allOnes 4) (bitsOfReg x) 0#4 kk (BitVec.allOnes 8)
  rw [BitVec.and_allOnes, BitVec.and_zero, BitVec.and_allOnes] at h
  exact h

theorem cls : Statement .cls := rfl
theorem ret : Statement .ret := rfl
theorem jp (nnn : BitVec 12) : Statement (.jp nnn) := nnn_row _ _
theorem call (nnn : BitVec 12) : Statement (.call nnn) := nnn_row _ _
theorem seImm (x : Reg) (kk : Byte) : Statement (.seImm x kk) := xkk_row _ _ _
theorem sneImm (x : Reg) (kk : Byte) : Statement (.sneImm x kk) := xkk_row _ _ _
theorem seReg (x y : Reg) : Statement (.seReg x y) := xys_row _ _ _ _
theorem ldImm (x : Reg) (kk : Byte) : Statement (.ldImm x kk) := xkk_row _ _ _
theorem addImm (x : Reg) (kk : Byte) : Statement (.addImm x kk) := xkk_row _ _ _
theorem ldReg (x y : Reg) : Statement (.ldReg x y) := xys_row _ _ _ _
theorem orReg (x y : Reg) : Statement (.orReg x y) := xys_row _ _ _ _
theorem andReg (x y : Reg) : Statement (.andReg x y) := xys_row _ _ _ _
theorem xorReg (x y : Reg) : Statement (.xorReg x y) := xys_row _ _ _ _
theorem addReg (x y : Reg) : Statement (.addReg x y) := xys_row _ _ _ _
theorem sub (x y : Reg) : Statement (.sub x y) := xys_row _ _ _ _
theorem shr (x y : Reg) : Statement (.shr x y) := xys_row _ _ _ _
theorem subn (x y : Reg) : Statement (.subn x y) := xys_row _ _ _ _
theorem shl (x y : Reg) : Statement (.shl x y) := xys_row _ _ _ _
theorem sneReg (x y : Reg) : Statement (.sneReg x y) := xys_row _ _ _ _
theorem ldI (nnn : BitVec 12) : Statement (.ldI nnn) := nnn_row _ _
theorem jpV0 (nnn : BitVec 12) : Statement (.jpV0 nnn) := nnn_row _ _
theorem rnd (x : Reg) (kk : Byte) : Statement (.rnd x kk) := xkk_row _ _ _
theorem drw (x y : Reg) (n : Nat) : Statement (.drw x y n) := xyn_row _ _ _ _
theorem skp (x : Reg) : Statement (.skp x) := xs_row _ _ _
theorem sknp (x : Reg) : Statement (.sknp x) := xs_row _ _ _
theorem ldVxDT (x : Reg) : Statement (.ldVxDT x) := xs_row _ _ _
theorem ldVxK (x : Reg) : Statement (.ldVxK x) := xs_row _ _ _
theorem ldDTVx (x : Reg) : Statement (.ldDTVx x) := xs_row _ _ _
theorem ldSTVx (x : Reg) : Statement (.ldSTVx x) := xs_row _ _ _
theorem addI (x : Reg) : Statement (.addI x) := xs_row _ _ _
theorem ldF (x : Reg) : Statement (.ldF x) := xs_row _ _ _
theorem ldB (x : Reg) : Statement (.ldB x) := xs_row _ _ _
theorem ldMemVx (x : Reg) : Statement (.ldMemVx x) := xs_row _ _ _
theorem ldVxMem (x : Reg) : Statement (.ldVxMem x) := xs_row _ _ _

end Sys2Proof.Laws.FollowsTable
end

