-- ==== Sys2Proof/Tests/Slice0.lean ====
section
/-! SUPPORT. The model's own tests. Expected results are the vectors of spec/95_test_vectors.md (named S, F,
C, A, M, K, D as there) and the layouts of spec/30_encoding.md. After them, for every obligation with
hypotheses, states and operands that meet them all. -/

namespace Sys2Proof.Tests

open Sys2Proof Sys2Proof.Machine

/-! ### Building states and reading outcomes -/

/-- Registers set. -/
def regs : List (Reg × Byte) → State → State
  | [], s => s
  | (r, b) :: l, s => (regs l s).writeV r b

/-- `I` at `a`, and bytes in memory from `a` on. -/
def atI (a : Word) (bytes : List Byte) (s : State) : State :=
  { s with idx := a, mem := s.mem.writeBytes a.toNat bytes }

/-- One turn of the host. -/
def turn (ticks : Nat) (held : BitVec 256) (key : KeyAnswer) (rand : Byte) (s : State) : State :=
  { s with host := [⟨ticks, held, key, rand⟩] }

/-- The word at `PC`. -/
def code (w : Word) (s : State) : State := s.placeAtPC w

/-- A next state that meets `p`. -/
def goesTo (o : Host.Outcome State Fault Refusal) (p : State → Bool) : Bool :=
  match o with
  | .next t => p t
  | .fault _ => false
  | .refused _ => false

/-- The fault `f`. -/
def faultsWith {σ : Type} (o : Host.Outcome σ Fault Refusal) (f : Fault) : Bool :=
  match o with
  | .next _ => false
  | .fault g => decide (g = f)
  | .refused _ => false

theorem exists_next {o : Host.Outcome State Fault Refusal} {P : State → Prop} [DecidablePred P]
    (h : goesTo o (fun t => decide (P t)) = true) : ∃ t, o = .next t ∧ P t := by
  cases o with
  | next t => exact ⟨t, rfl, of_decide_eq_true h⟩
  | fault f => cases h
  | refused r => cases h

theorem eq_fault {σ : Type} {o : Host.Outcome σ Fault Refusal} {f : Fault} (h : faultsWith o f = true) :
    o = .fault f := by
  cases o with
  | next t => cases h
  | fault g => exact congrArg _ (of_decide_eq_true h)
  | refused r => cases h

/-- One call of `execute_one` from `s` with the word at `PC`, as the host's interface shows it. -/
def run (w : Word) (s : State) : Host.Outcome State Fault Refusal :=
  (code w s).shown (executeOne (code w s))

/-- Did the call end in `Blocked`? -/
def endsBlocked (o : Host.Outcome CallEnd Fault Refusal) : Bool :=
  match o with
  | .next e => decide (e = .blocked)
  | .fault _ => false
  | .refused _ => false

theorem eq_blocked {o : Host.Outcome CallEnd Fault Refusal} (h : endsBlocked o = true) :
    o = .next .blocked := by
  cases o with
  | next e => exact congrArg _ (of_decide_eq_true h)
  | fault f => cases h
  | refused r => cases h

/-! ### Well-formedness: the one check (R73) -/

theorem test_wellFormed_refuses_row_count_16 : (Instr.drw 0 1 16).wellFormed = false := by decide
theorem test_wellFormed_accepts_row_count_15 : (Instr.drw 0 1 15).wellFormed = true := by decide

/-! ### Decoding: every instruction, its word written bit by bit from R72 to R80 -/

theorem test_decode_cls : decode 0b0000_0000_1110_0000 = .ok .cls := by decide
theorem test_decode_ret : decode 0b0000_0000_1110_1110 = .ok .ret := by decide
theorem test_decode_jp : decode 0b0001_0010_1010_0100 = .ok (.jp 0x2A4) := by decide
theorem test_decode_call : decode 0b0010_0010_0001_0000 = .ok (.call 0x210) := by decide
theorem test_decode_seImm : decode 0b0011_0100_0011_0001 = .ok (.seImm 4 0x31) := by decide
theorem test_decode_sneImm : decode 0b0100_0100_0011_0001 = .ok (.sneImm 4 0x31) := by decide
theorem test_decode_seReg : decode 0b0101_0100_0101_0000 = .ok (.seReg 4 5) := by decide
theorem test_decode_ldImm : decode 0b0110_1111_0111_0001 = .ok (.ldImm 0xF 0x71) := by decide
theorem test_decode_addImm : decode 0b0111_0011_0000_0010 = .ok (.addImm 3 0x02) := by decide
theorem test_decode_ldReg : decode 0b1000_1111_0001_0000 = .ok (.ldReg 0xF 1) := by decide
theorem test_decode_orReg : decode 0b1000_0010_0001_0001 = .ok (.orReg 2 1) := by decide
theorem test_decode_andReg : decode 0b1000_0010_0001_0010 = .ok (.andReg 2 1) := by decide
theorem test_decode_xorReg : decode 0b1000_0010_0001_0011 = .ok (.xorReg 2 1) := by decide
theorem test_decode_addReg : decode 0b1000_0010_1111_0100 = .ok (.addReg 2 0xF) := by decide
theorem test_decode_sub : decode 0b1000_1111_0001_0101 = .ok (.sub 0xF 1) := by decide
theorem test_decode_shr : decode 0b1000_1010_1011_0110 = .ok (.shr 0xA 0xB) := by decide
theorem test_decode_subn : decode 0b1000_0010_0001_0111 = .ok (.subn 2 1) := by decide
theorem test_decode_shl : decode 0b1000_1010_1011_1110 = .ok (.shl 0xA 0xB) := by decide
theorem test_decode_sneReg : decode 0b1001_0100_0101_0000 = .ok (.sneReg 4 5) := by decide
theorem test_decode_ldI : decode 0b1010_0010_0001_0100 = .ok (.ldI 0x214) := by decide
theorem test_decode_jpV0 : decode 0b1011_0001_1111_0010 = .ok (.jpV0 0x1F2) := by decide
theorem test_decode_rnd : decode 0b1100_0100_0000_1111 = .ok (.rnd 4 0x0F) := by decide
theorem test_decode_drw : decode 0b1101_0010_0001_0011 = .ok (.drw 2 1 3) := by decide
theorem test_decode_skp : decode 0b1110_0101_1001_1110 = .ok (.skp 5) := by decide
theorem test_decode_sknp : decode 0b1110_0101_1010_0001 = .ok (.sknp 5) := by decide
theorem test_decode_ldVxDT : decode 0b1111_0011_0000_0111 = .ok (.ldVxDT 3) := by decide
theorem test_decode_ldVxK : decode 0b1111_0011_0000_1010 = .ok (.ldVxK 3) := by decide
theorem test_decode_ldDTVx : decode 0b1111_0011_0001_0101 = .ok (.ldDTVx 3) := by decide
theorem test_decode_ldSTVx : decode 0b1111_0011_0001_1000 = .ok (.ldSTVx 3) := by decide
theorem test_decode_addI : decode 0b1111_0011_0001_1110 = .ok (.addI 3) := by decide
theorem test_decode_ldF : decode 0b1111_0011_0010_1001 = .ok (.ldF 3) := by decide
theorem test_decode_ldB : decode 0b1111_0011_0011_0011 = .ok (.ldB 3) := by decide
theorem test_decode_ldMemVx : decode 0b1111_0001_0101_0101 = .ok (.ldMemVx 1) := by decide
theorem test_decode_ldVxMem : decode 0b1111_1111_0110_0101 = .ok (.ldVxMem 0xF) := by decide

/-- F6 to F9, and 0x00E1. -/
theorem test_decode_unknown_groups_0_5 :
    decode 0x0000 = .error (.unknownOpcode 0x0000) ∧
    decode 0x0123 = .error (.unknownOpcode 0x0123) ∧
    decode 0x01E0 = .error (.unknownOpcode 0x01E0) ∧
    decode 0x00E1 = .error (.unknownOpcode 0x00E1) ∧
    decode 0x5121 = .error (.unknownOpcode 0x5121) := by decide

/-- F10, F11, and a word of 0x8 with `n = 9`. -/
theorem test_decode_unknown_groups_8_9 :
    decode 0x9AB1 = .error (.unknownOpcode 0x9AB1) ∧
    decode 0x8008 = .error (.unknownOpcode 0x8008) ∧
    decode 0x800D = .error (.unknownOpcode 0x800D) ∧
    decode 0x800F = .error (.unknownOpcode 0x800F) ∧
    decode 0x8129 = .error (.unknownOpcode 0x8129) := by decide

/-- F13, F14. -/
theorem test_decode_unknown_groups_E_F :
    decode 0xE09F = .error (.unknownOpcode 0xE09F) ∧
    decode 0xE0A0 = .error (.unknownOpcode 0xE0A0) ∧
    decode 0xF000 = .error (.unknownOpcode 0xF000) ∧
    decode 0xF019 = .error (.unknownOpcode 0xF019) ∧
    decode 0xF066 = .error (.unknownOpcode 0xF066) := by decide

theorem test_decodeBytes_high_byte_first :
    decodeBytes [0x12, 0x34, 0x60] = .ok (.jp 0x234, [0x60]) := by decide

theorem test_decodeBytes_truncated : decodeBytes [0x12] = .error (.truncated [0x12]) := by decide

theorem test_decodeTableWord : decodeTableWord 16 0xD012 = some (.drw 0 1 2) := by decide

/-! ### Assembler syntax (R83): the table's rows as text, and the shifts -/

theorem test_text_jp : (asmLine (.jp 0x204)).text = "JP 0x204" := by decide
theorem test_text_ldImm : (asmLine (.ldImm 1 0x05)).text = "LD V1, 0x05" := by decide
theorem test_text_jpV0 : (asmLine (.jpV0 0x1F0)).text = "JP V0, 0x1F0" := by decide
theorem test_text_drw : (asmLine (.drw 0 0xF 5)).text = "DRW V0, VF, 5" := by decide
theorem test_text_ldMemVx : (asmLine (.ldMemVx 1)).text = "LD [I], V1" := by decide
theorem test_assemble_shr : assemble ⟨.shr, [.v 2]⟩ = some (.shr 2 0) ∧ encode (.shr 2 0) = 0x8206 := by
  decide
theorem test_assemble_refuses :
    assemble ⟨.jp, [.v 1, .addr 0x1F0]⟩ = none ∧ assemble ⟨.drw, [.v 0, .v 1, .count 16]⟩ = none ∧
      assemble ⟨.shr, [.v 2, .v 7]⟩ = none := by decide

/-! ### Fetch and faults -/

/-- F2: an odd address. -/
theorem test_F2_odd_fetch :
    goesTo (run 0x6005 { State.reset with pc := 0x201 })
      (fun t => decide (t.readV 0 = 0x05 ∧ t.pc = 0x203)) = true := by decide

/-- F4. -/
theorem test_F4_fetch_second_byte :
    faultsWith (executeOne { State.reset with pc := 0xFFF }) (.memoryOutOfBounds 0x1000) = true := by
  decide

/-- C14: the sum is not masked. -/
theorem test_C14_fetch_at_10FE :
    faultsWith (executeOne { State.reset with pc := 0x10FE }) (.memoryOutOfBounds 0x10FE) = true := by
  decide

/-- F6, and R242: nothing but `fault` changes. -/
theorem test_F6_unknown_word :
    stateAfter State.reset = { State.reset with fault := some (.unknownOpcode 0x0000) } := by decide

/-! ### Control flow -/

theorem test_C1_jp : goesTo (run 0x12A4 .reset) (fun t => decide (t.pc = 0x02A4)) = true := by decide

/-- S8, the call. -/
theorem test_S8_call :
    goesTo (run 0x2300 { State.reset with pc := 0x204 })
      (fun t => decide (t.stackEntry 0 = some 0x0206 ∧ t.sp = 1 ∧ t.pc = 0x300)) = true := by decide

/-- S9. -/
theorem test_S9_call_overflow :
    faultsWith (run 0x2400 { State.reset with pc := 0x500, stack := List.replicate 16 0xABC })
      (.stackOverflow 0x500) = true := by decide

/-- S8, the return. -/
theorem test_S8_ret :
    goesTo (run 0x00EE { State.reset with pc := 0x300, stack := [0x206, 0x111] })
      (fun t => decide (t.pc = 0x206 ∧ t.stack = [0x111])) = true := by decide

/-- C5. -/
theorem test_C5_ret_underflow :
    faultsWith (run 0x00EE { State.reset with pc := 0x300 }) (.stackUnderflow 0x300) = true := by decide

theorem test_C6_seImm :
    goesTo (run 0x3433 (regs [(4, 0x33)] .reset)) (fun t => decide (t.pc = 0x204)) = true := by decide
theorem test_C7_seImm :
    goesTo (run 0x3433 (regs [(4, 0x32)] .reset)) (fun t => decide (t.pc = 0x202)) = true := by decide
theorem test_C8_sneImm :
    goesTo (run 0x4433 (regs [(4, 0x32)] .reset)) (fun t => decide (t.pc = 0x204)) = true := by decide
theorem test_sneImm_equal :
    goesTo (run 0x4433 (regs [(4, 0x33)] .reset)) (fun t => decide (t.pc = 0x202)) = true := by decide
theorem test_C9_seReg :
    goesTo (run 0x5450 (regs [(4, 0x10), (5, 0x10)] .reset)) (fun t => decide (t.pc = 0x204)) = true := by
  decide
theorem test_seReg_unequal :
    goesTo (run 0x5450 (regs [(4, 1), (5, 2)] .reset)) (fun t => decide (t.pc = 0x202)) = true := by decide
theorem test_C11_sneReg :
    goesTo (run 0x9440 (regs [(4, 0x77)] .reset)) (fun t => decide (t.pc = 0x202)) = true := by decide
theorem test_C12_sneReg :
    goesTo (run 0x9450 (regs [(4, 1), (5, 2)] .reset)) (fun t => decide (t.pc = 0x204)) = true := by decide
theorem test_C14_jpV0 :
    goesTo (run 0xBFFF (regs [(0, 0xFF)] .reset)) (fun t => decide (t.pc = 0x10FE)) = true := by decide
theorem test_C15_jpV0 :
    goesTo (run 0xB1F0 (regs [(0, 0x10), (1, 0x99)] .reset)) (fun t => decide (t.pc = 0x200)) = true := by
  decide

/-! ### ALU -/

theorem test_A1_ldImm :
    goesTo (run 0x6F77 .reset) (fun t => decide (t.readV VF = 0x77 ∧ t.pc = 0x202)) = true := by decide
theorem test_A2_addImm :
    goesTo (run 0x7302 (regs [(3, 0xFF)] .reset)) (fun t => decide (t.readV 3 = 1 ∧ t.readV VF = 0)) = true := by
  decide
theorem test_A3_addImm :
    goesTo (run 0x7FF5 (regs [(VF, 0x10)] .reset)) (fun t => decide (t.readV VF = 0x05)) = true := by decide
theorem test_A4_ldReg :
    goesTo (run 0x8F10 (regs [(1, 0x42), (VF, 9)] .reset)) (fun t => decide (t.readV VF = 0x42)) = true := by
  decide
theorem test_A5_orReg :
    goesTo (run 0x8011 (regs [(0, 0xF0), (1, 0x0F), (VF, 7)] .reset))
      (fun t => decide (t.readV 0 = 0xFF ∧ t.readV VF = 7)) = true := by decide
theorem test_A6_andReg :
    goesTo (run 0x8012 (regs [(0, 0xF0), (1, 0x3C), (VF, 7)] .reset))
      (fun t => decide (t.readV 0 = 0x30 ∧ t.readV VF = 7)) = true := by decide
theorem test_A7_xorReg :
    goesTo (run 0x8003 (regs [(0, 0x5A)] .reset)) (fun t => decide (t.readV 0 = 0)) = true := by decide
theorem test_S4_addReg :
    goesTo (run 0x8014 (regs [(0, 0xC8), (1, 0x64)] .reset))
      (fun t => decide (t.readV 0 = 0x2C ∧ t.readV VF = 1)) = true := by decide
theorem test_A12_addReg :
    goesTo (run 0x8F14 (regs [(VF, 1), (1, 2)] .reset)) (fun t => decide (t.readV VF = 0)) = true := by decide
theorem test_S6_sub :
    goesTo (run 0x8015 (regs [(0, 5), (1, 10), (VF, 1)] .reset))
      (fun t => decide (t.readV 0 = 0xFB ∧ t.readV VF = 0)) = true := by decide
theorem test_A14_sub :
    goesTo (run 0x8015 (regs [(0, 5), (1, 5)] .reset))
      (fun t => decide (t.readV 0 = 0 ∧ t.readV VF = 1)) = true := by decide
theorem test_A17_subn :
    goesTo (run 0x8017 (regs [(0, 5), (1, 10)] .reset))
      (fun t => decide (t.readV 0 = 5 ∧ t.readV VF = 1)) = true := by decide
theorem test_A18_subn :
    goesTo (run 0x8017 (regs [(0, 10), (1, 5), (VF, 1)] .reset))
      (fun t => decide (t.readV 0 = 0xFB ∧ t.readV VF = 0)) = true := by decide
theorem test_A22_shr :
    goesTo (run 0x8276 (regs [(2, 3), (7, 0xFF)] .reset))
      (fun t => decide (t.readV 2 = 1 ∧ t.readV VF = 1 ∧ t.readV 7 = 0xFF)) = true := by decide
theorem test_A23_shr :
    goesTo (run 0x8F06 (regs [(VF, 2)] .reset)) (fun t => decide (t.readV VF = 0)) = true := by decide
theorem test_A24_shl :
    goesTo (run 0x820E (regs [(2, 0x81)] .reset))
      (fun t => decide (t.readV 2 = 2 ∧ t.readV VF = 1)) = true := by decide
theorem test_A25_shl :
    goesTo (run 0x820E (regs [(2, 0x7F), (VF, 1)] .reset))
      (fun t => decide (t.readV 2 = 0xFE ∧ t.readV VF = 0)) = true := by decide
theorem test_A27_rnd :
    goesTo (run 0xC40F (turn 0 0 .pending 0xA7 .reset))
      (fun t => decide (t.readV 4 = 0x07)) = true := by decide

/-! ### Index and memory -/

theorem test_M1_ldI : goesTo (run 0xAFFF .reset) (fun t => decide (t.idx = 0xFFF)) = true := by decide
theorem test_M2_addI :
    goesTo (run 0xF01E (regs [(0, 1)] (atI 0xFFF [] .reset)))
      (fun t => decide (t.idx = 0 ∧ t.readV VF = 0)) = true := by decide
theorem test_M5_ldF :
    goesTo (run 0xF029 (regs [(0, 0xAB)] .reset)) (fun t => decide (t.idx = 0x037)) = true := by decide
theorem test_M10_ldB :
    goesTo (run 0xF333 (regs [(3, 0x80)] (atI 0xFFD [] .reset)))
      (fun t => decide (t.mem.readBytes 0xFFD 3 = [1, 2, 8] ∧ t.idx = 0xFFD)) = true := by decide
theorem test_M11_ldB :
    faultsWith (run 0xF333 (regs [(3, 0x80)] (atI 0xFFE [0xAA] .reset))) (.memoryOutOfBounds 0x1000)
      = true := by decide
theorem test_M12_ldMemVx :
    goesTo (run 0xF055 (regs [(0, 0x11)] (atI 0x400 [0xEE, 0xDD] .reset)))
      (fun t => decide (t.mem.readBytes 0x400 2 = [0x11, 0xDD] ∧ t.idx = 0x400)) = true := by decide
theorem test_M14_ldMemVx :
    faultsWith (run 0xFF55 (atI 0xFF8 [] .reset)) (.memoryOutOfBounds 0x1000) = true := by decide
theorem test_M15_ldVxMem :
    goesTo (run 0xFF65 (atI 0x400 ((List.range 16).map fun k => BitVec.ofNat 8 (0x10 + k)) .reset))
      (fun t => decide (t.readV 0 = 0x10 ∧ t.readV 7 = 0x17 ∧ t.readV VF = 0x1F ∧ t.idx = 0x400)) = true := by
  decide
theorem test_M16_ldVxMem :
    goesTo (run 0xF065 (regs [(1, 0x55)] (atI 0x400 [0x99, 0x98] .reset)))
      (fun t => decide (t.readV 0 = 0x99 ∧ t.readV 1 = 0x55)) = true := by decide

/-- Memory at reset: the glyph of `7` at 0x023 (R56), and nothing listed. -/
theorem test_reset_memory :
    State.reset.mem.wf = true ∧ State.reset.mem.readBytes 0x23 5 = [0xF0, 0x10, 0x20, 0x40, 0x40] ∧
      State.reset.mem.read 0x50 = 0 := by decide

/-! ### Keys and timers -/

theorem test_K1_skp :
    goesTo (run 0xE59E (regs [(5, 4)] (turn 0 0x10#256 .pending 0 .reset)))
      (fun t => decide (t.pc = 0x204)) = true := by decide
theorem test_K2_skp :
    goesTo (run 0xE59E (regs [(5, 4)] (turn 0 (~~~0x10#256) .pending 0 .reset)))
      (fun t => decide (t.pc = 0x202)) = true := by decide
theorem test_K3_sknp :
    goesTo (run 0xE5A1 (regs [(5, 4)] (turn 0 0x10#256 .pending 0 .reset)))
      (fun t => decide (t.pc = 0x202)) = true := by decide
theorem test_K4_sknp :
    goesTo (run 0xE5A1 (regs [(5, 4)] (turn 0 (~~~0x10#256) .pending 0 .reset)))
      (fun t => decide (t.pc = 0x204)) = true := by decide

/-- K7: a whole step, with the host's ticks before it. -/
theorem test_K7_ldVxDT :
    goesTo (step (code 0xF307 (turn 5 0 .pending 0 { State.reset with dt := 0x3C })))
      (fun t => decide (t.readV 3 = 0x37 ∧ t.dt = 0x37 ∧ t.host = [] ∧ t.turns = 1)) = true := by decide

/-- K8: a countdown stops at zero. -/
theorem test_K8_ldVxDT :
    goesTo (step (code 0xF307 (turn 9 0 .pending 0 { State.reset with dt := 2 })))
      (fun t => decide (t.readV 3 = 0 ∧ t.dt = 0)) = true := by decide
theorem test_K9_ldDTVx :
    goesTo (run 0xF315 (regs [(3, 0x3C)] .reset)) (fun t => decide (t.dt = 0x3C ∧ t.st = 0)) = true := by
  decide
theorem test_K10_ldSTVx :
    goesTo (run 0xF318 (regs [(3, 0x0A)] .reset)) (fun t => decide (t.st = 0x0A ∧ t.dt = 0)) = true := by
  decide
theorem test_K11_ldVxK :
    endsBlocked (executeOne (code 0xF00A (regs [(0, 0x77)] (turn 0 0 .pending 0 .reset)))) = true ∧
      stateAfter (code 0xF00A (regs [(0, 0x77)] (turn 0 0 .pending 0 .reset)))
        = { code 0xF00A (regs [(0, 0x77)] (turn 0 0 .pending 0 .reset)) with waiting := true } := by
  decide
theorem test_K12_ldVxK :
    goesTo (run 0xF00A (regs [(0, 0x77)] (turn 0 0 (.key 0x0C) 0 .reset)))
      (fun t => decide (t.readV 0 = 0x0C ∧ t.pc = 0x202 ∧ t.waiting = false)) = true := by decide
/-- K13. -/
theorem test_K13_key_read_fails :
    faultsWith (run 0xF00A (turn 0 0 (.error 9) 0 .reset)) (.inputSourceError 9) = true := by
  decide

/-! ### Display -/

/-- `V0`, `V1` the place, and the sprite at 0x300. -/
def sprite (cx cy : Byte) (rows : List Byte) (s : State) : State :=
  regs [(0, cx), (1, cy)] (atI 0x300 rows s)

/-- One display row set. -/
def lit (r : Fin 32) (m : Row) (s : State) : State := { s with disp := s.disp.set r.val m }

/-- D1. -/
theorem test_D1_cls :
    goesTo (run 0x00E0 (regs [(VF, 1)] { State.reset with disp := Vector.replicate 32 0xFFFFFFFFFFFFFFFF }))
      (fun t => decide ((∀ r, t.disp.row r = 0) ∧ t.readV VF = 1)) = true := by decide

/-- S2: the overflow wraps on the same row. -/
theorem test_S2_draw_wraps :
    goesTo (run 0xD011 (sprite 60 3 [0xFF] .reset))
      (fun t => decide (t.disp.row 3 = 0xF00000000000000F ∧ t.disp.row 4 = 0 ∧ t.readV VF = 0)) = true := by
  decide

/-- D10: a later row does not clear the flag. -/
theorem test_D10_draw_collides :
    goesTo (run 0xD012 (sprite 0 0 [0x80, 0x80] (lit 0 1 .reset)))
      (fun t => decide (t.disp.row 0 = 0 ∧ t.disp.row 1 = 1 ∧ t.readV VF = 1)) = true := by decide

/-! ### States and operands that meet each statement's hypotheses

In the order of the statements, with one theorem for each clause that has hypotheses of its own. -/

theorem test_witness_DecodeOfEncode : (Instr.drw 15 15 15).wellFormed = true := by decide

theorem test_witness_DecodedWordIsItsEncoding : decode 0xDFFF = .ok (.drw 15 15 15) := by decide

theorem test_witness_OpcodeTableRowsDoNotOverlap :
    decode 0x8AB6 = .ok (.shr 0xA 0xB) ∧
      0x8AB6#16 &&& (opcodeRow (.shr 0xA 0xB)).2 = (opcodeRow (.shr 0xA 0xB)).1 ∧
      0x8AB6#16 &&& (opcodeRow (.shr 0 0)).2 = (opcodeRow (.shr 0 0)).1 := by decide

theorem test_witness_InstructionBytesDecode : (Instr.drw 0 1 15).wellFormed = true := by decide

theorem test_witness_FetchReadsBigEndianWord_in_range :
    ({ State.reset with pc := 0xFFE } : State).pc.toNat + 1 < Config.memSize := by decide
theorem test_witness_FetchReadsBigEndianWord_first_byte_out :
    Config.memSize ≤ ({ State.reset with pc := 0x1000 } : State).pc.toNat := by decide
theorem test_witness_FetchReadsBigEndianWord_second_byte_out :
    ({ State.reset with pc := 0xFFF } : State).pc.toNat < Config.memSize ∧
      Config.memSize ≤ ({ State.reset with pc := 0xFFF } : State).pc.toNat + 1 := by decide

/-- A state with the instruction at the last address it can have. -/
def last (w : Word) : State := code w { State.reset with pc := 0xFFE }

theorem test_witness_StepRunsDecodedInstruction :
    (last 0x00E0).fault = none ∧ (last 0x00E0).pc.toNat + 1 < Config.memSize ∧
      decode (wordOfBytes ((last 0x00E0).mem.read (last 0x00E0).pc.toNat)
        ((last 0x00E0).mem.read ((last 0x00E0).pc.toNat + 1))) = .ok .cls := by decide

/-- Its last clause: no wait, and a next state before and after the host's ticks. -/
theorem test_witness_StepRunsDecodedInstruction_ok :
    (∀ x, Instr.cls = .ldVxK x → (last 0x00E0).keyWait ≠ .pending) ∧
      (∃ t, exec .cls (last 0x00E0) = .next t ∧ t.pc = 0x1000) ∧
      ∃ t, exec .cls (last 0x00E0).beginTurn = .next t ∧ t.pc = 0x1000 :=
  ⟨by simp, exists_next (by decide), exists_next (by decide)⟩

theorem test_witness_FaultPriority_first_byte :
    ({ State.reset with pc := 0x1000 } : State).fault = none ∧
      Config.memSize ≤ ({ State.reset with pc := 0x1000 } : State).pc.toNat := by decide
theorem test_witness_FaultPriority_second_byte :
    ({ State.reset with pc := 0xFFF } : State).fault = none ∧
      ({ State.reset with pc := 0xFFF } : State).pc.toNat < Config.memSize ∧
      Config.memSize ≤ ({ State.reset with pc := 0xFFF } : State).pc.toNat + 1 := by decide
theorem test_witness_FaultPriority_decode :
    (last 0x5121).fault = none ∧ (last 0x5121).pc.toNat + 1 < Config.memSize ∧
      decode (last 0x5121).wordAtPC = .error (.unknownOpcode 0x5121) := by decide
theorem test_witness_FaultPriority_execute :
    ((last 0x00EE).fault = none ∧ (last 0x00EE).pc.toNat + 1 < Config.memSize ∧
      decode (last 0x00EE).wordAtPC = .ok .ret) ∧
      exec .ret (last 0x00EE) = .fault (.stackUnderflow 0xFFE) :=
  ⟨by decide, eq_fault (by decide)⟩

theorem test_witness_UnknownOpcodeWritesNothing :
    (last 0xF066).fault = none ∧ (last 0xF066).pc.toNat + 1 < Config.memSize ∧
      decode (last 0xF066).wordAtPC = .error (.unknownOpcode (last 0xF066).wordAtPC) := by decide

theorem test_witness_FaultedStateIsTerminal :
    executeOne State.reset = .fault (.unknownOpcode 0) ∧ State.reset.fault = none :=
  ⟨eq_fault (by decide), by decide⟩

theorem test_witness_OnlyListedInstructionsFault_drw :
    exec (.drw 0 0 2) (atI 0xFFF [] .reset) = .fault (.memoryOutOfBounds 0x1000) := eq_fault (by decide)
theorem test_witness_OnlyListedInstructionsFault_transfers :
    exec (.ldB 0) (atI 0xFFE [] .reset) = .fault (.memoryOutOfBounds 0x1000) ∧
    exec (.ldMemVx 1) (atI 0xFFF [] .reset) = .fault (.memoryOutOfBounds 0x1000) ∧
    exec (.ldVxMem 1) (atI 0xFFF [] .reset) = .fault (.memoryOutOfBounds 0x1000) :=
  ⟨eq_fault (by decide), eq_fault (by decide), eq_fault (by decide)⟩
theorem test_witness_OnlyListedInstructionsFault_key :
    exec (.ldVxK 0) (turn 0 0 (.error 1) 0 .reset) = .fault (.inputSourceError 1) :=
  eq_fault (by decide)
theorem test_witness_OnlyListedInstructionsFault_others :
    (∀ x y n, Instr.cls ≠ .drw x y n) ∧
    (∀ x, Instr.cls ≠ .ldB x ∧ Instr.cls ≠ .ldMemVx x ∧ Instr.cls ≠ .ldVxMem x ∧ Instr.cls ≠ .ldVxK x) ∧
    (∀ nnn, Instr.cls ≠ .call nnn) ∧ Instr.cls ≠ .ret := by simp
theorem test_witness_OnlyListedInstructionsFault_call :
    State.reset.fault = none ∧ executeOne State.reset = .fault (.unknownOpcode 0) :=
  ⟨by decide, eq_fault (by decide)⟩

theorem test_witness_WithFetchWordRunsTheWord :
    ({ State.reset with pc := 0xFFE } : State).fault = none ∧
      ({ State.reset with pc := 0xFFE } : State).mem.wf = true ∧
      ({ State.reset with pc := 0xFFE } : State).pc.toNat + 1 < Config.memSize ∧
      (Instr.drw 0 1 15).wellFormed = true := by decide

/-- A state blocked at a wait-for-key, which meets the invariant. -/
def waitingState : State := { code 0xF00A State.reset with waiting := true }

theorem test_witness_StepKeepsInvariant :
    waitingState.Inv ∧ ({ waitingState with host := [⟨3, 0, .key 5, 0⟩] } : State).Inv ∧
      ∃ t, step { waitingState with host := [⟨3, 0, .key 5, 0⟩] } = .next t ∧ t.readV 0 = 5 :=
  ⟨⟨by decide, by decide, by decide, fun _ => ⟨by decide, 0, by decide⟩⟩,
   ⟨by decide, by decide, by decide, fun _ => ⟨by decide, 0, by decide⟩⟩, exists_next (by decide)⟩

/-- Two orders of writing, one memory. -/
theorem test_witness_CanonicalMemoryIsDetermined :
    (Memory.write (Memory.write [] 0x300 1) 0xFFF 2).wf = true ∧
      (Memory.write (Memory.write [] 0xFFF 2) 0x300 1).wf = true ∧
      ∀ a, (Memory.write (Memory.write [] 0x300 1) 0xFFF 2).read a
        = (Memory.write (Memory.write [] 0xFFF 2) 0x300 1).read a :=
  ⟨by decide, by decide, fun _ => rfl⟩

theorem test_witness_LoaderWritesTheImage :
    State.reset.mem.wf = true ∧
      Config.progBase.toNat + (List.replicate 3584 (0x12 : Byte)).length ≤ Config.memSize ∧
      (List.replicate 3584 (0x12 : Byte))[3583]? = some 0x12 :=
  ⟨by decide, by rw [List.length_replicate]; decide, by rw [List.getElem?_replicate]; decide⟩

/-- M17, at the highest address it can have. -/
theorem test_witness_StoredInstructionIsFetched :
    (atI 0xFFE [] { State.reset with pc := 0xFFC }).mem.wf = true ∧
      (atI 0xFFE [] { State.reset with pc := 0xFFC }).idx.toNat
        = (atI 0xFFE [] { State.reset with pc := 0xFFC }).pc.toNat + 2 ∧
      (atI 0xFFE [] { State.reset with pc := 0xFFC }).pc.toNat + 3 < Config.memSize := by decide

theorem test_witness_OnlyStoresChangeMemory :
    ∃ t, exec (.ldB 3) (regs [(3, 0xFF)] (atI 0xFFD [] .reset)) = .next t ∧
      t.mem ≠ (regs [(3, 0xFF)] (atI 0xFFD [] .reset)).mem := exists_next (by decide)

theorem test_witness_OnlyClearAndDrawChangeDisplay :
    (∃ t, exec .cls (lit 0 1 .reset) = .next t ∧ t.disp ≠ (lit 0 1 .reset).disp) ∧
      ∃ t, exec (.drw 0 1 1) (sprite 0 0 [0x80] .reset) = .next t ∧
        t.disp ≠ (sprite 0 0 [0x80] .reset).disp :=
  ⟨exists_next (by decide), exists_next (by decide)⟩

theorem test_witness_OnlyCallAndReturnTouchStack :
    (∃ t, exec (.call 0x300) .reset = .next t ∧ t.stack ≠ State.reset.stack) ∧
      ∃ t, exec .ret { State.reset with stack := [0x206] } = .next t ∧ t.stack ≠ [0x206] :=
  ⟨exists_next (by decide), exists_next (by decide)⟩

theorem test_witness_IndexWrittenMaskedByThree :
    (∃ t, exec (.ldI 0xFFF) .reset = .next t ∧ t.idx ≠ State.reset.idx) ∧
      (∃ t, exec (.addI 0) (regs [(0, 0xFF)] (atI 0xFFF [] .reset)) = .next t ∧ t.idx ≠ 0xFFF) ∧
      ∃ t, exec (.ldF 0) (regs [(0, 0xFF)] .reset) = .next t ∧ t.idx ≠ State.reset.idx :=
  ⟨exists_next (by decide), exists_next (by decide), exists_next (by decide)⟩

theorem test_witness_TimersWrittenOnlyBySetTimer :
    (∃ t, exec (.ldDTVx 0) (regs [(0, 1)] .reset) = .next t ∧ t.dt ≠ State.reset.dt) ∧
      (∃ t, exec (.ldSTVx 0) (regs [(0, 1)] .reset) = .next t ∧ t.st ≠ State.reset.st) ∧
      ∃ t, exec (.ldVxK 0) (turn 0 0 .pending 0 .reset) = .next t ∧
        t.waiting ≠ State.reset.waiting :=
  ⟨exists_next (by decide), exists_next (by decide), exists_next (by decide)⟩

theorem test_witness_FlagRegisterWrittenOnlyAsListed :
    (∃ t, exec (.addReg 0 1) (regs [(0, 0xFF), (1, 1)] .reset) = .next t ∧ t.readV VF ≠ 0) ∧
      ∃ t, exec (.drw 0 1 1) (sprite 0 0 [0x80] (lit 0 1 .reset)) = .next t ∧ t.readV VF ≠ 0 :=
  ⟨exists_next (by decide), exists_next (by decide)⟩

theorem test_witness_NextProgramCounter_next :
    (∃ t, exec .ret { State.reset with stack := [0x206] } = .next t ∧ t.pc = 0x206) ∧
      (∃ t, exec (.jpV0 0xFFF) (regs [(0, 0xFF)] .reset) = .next t ∧ t.pc = 0x10FE) ∧
      ∃ t, exec .cls { State.reset with pc := 0xFFFE } = .next t ∧ t.pc = 0 :=
  ⟨exists_next (by decide), exists_next (by decide), exists_next (by decide)⟩
theorem test_witness_NextProgramCounter_skip_and_wait :
    (∃ t, exec (.sneReg 4 5) (regs [(4, 1)] .reset) = .next t ∧ t.pc = 0x204) ∧
      ∃ t, exec (.ldVxK 0) (turn 0 0 .pending 0 .reset) = .next t ∧ t.pc = 0x200 :=
  ⟨exists_next (by decide), exists_next (by decide)⟩
theorem test_witness_NextProgramCounter_fault :
    executeOne { State.reset with pc := 0xFFF } = .fault (.memoryOutOfBounds 0x1000) :=
  eq_fault (by decide)

theorem test_witness_DelayTimerReadOnlyByGetTimer :
    (∀ x, Instr.cls ≠ .ldVxDT x) ∧ (∀ x, Instr.cls ≠ .ldDTVx x) ∧
      (∀ x, Instr.ldDTVx 3 ≠ .ldVxDT x) ∧ ∃ x, Instr.ldDTVx 3 = .ldDTVx x := by simp

/-- ShiftsMoveOneBitOut, the decoder's clauses: a word of each shift with `y` not 0. -/
theorem test_witness_ShiftsMoveOneBitOut_words :
    fieldO 0x8AF6 = 0x8 ∧ fieldN 0x8AF6 = 0x6 ∧ fieldO 0x8AFE = 0x8 ∧ fieldN 0x8AFE = 0xE := by decide

/-- AddSetsCarry, SubtractSetsNotBorrow, ReverseSubtractSetsNotBorrow, ShiftsMoveOneBitOut: `x` other than
`F`, and the two values of each comparison, at its boundary. -/
theorem test_witness_flag_results : (0xE : Reg) ≠ VF ∧
    (0xFF#8).toNat + (0x01#8).toNat > 255 ∧ ¬(0xFE#8).toNat + (0x01#8).toNat > 255 ∧
    (0x01#8).toNat > (0x00#8).toNat ∧ ¬(0x01#8).toNat > (0x01#8).toNat := by decide

theorem test_witness_CallPushesReturnAddress_room :
    ({ State.reset with stack := List.replicate 15 0xABC } : State).sp < Config.stackDepth := by decide
theorem test_witness_CallPushesReturnAddress_full :
    ({ State.reset with stack := List.replicate 16 0xABC } : State).sp = Config.stackDepth := by decide

theorem test_witness_ReturnPopsProgramCounter :
    ({ State.reset with stack := List.replicate 16 0xABC } : State).sp = 15 + 1 ∧
      ({ State.reset with stack := [0xABC] } : State).sp = 0 + 1 ∧ State.reset.sp = 0 := by decide

theorem test_witness_CallThenReturnRestores :
    ∃ t, exec (.call 0x300) { State.reset with stack := List.replicate 15 0xABC } = .next t ∧
      (regs [(3, 9)] { State.reset with stack := t.stack }).stack = t.stack := exists_next (by decide)

theorem test_witness_JumpToItselfNeverEnds :
    (last 0x1FFE).fault = none ∧ (last 0x1FFE).pc.toNat + 1 < Config.memSize ∧
      decode (last 0x1FFE).wordAtPC = .ok (.jp 0xFFE) ∧
      (last 0x1FFE).pc.toNat = (0xFFE : BitVec 12).toNat := by decide

theorem test_witness_BcdStoresThreeDigits_in_range :
    (atI 0xFFD [] .reset).mem.wf = true ∧ dataAddr (atI 0xFFD [] .reset) 2 < Config.memSize := by decide
theorem test_witness_BcdStoresThreeDigits_out_of_range :
    (atI 0xFFE [] .reset).mem.wf = true ∧
      0x1000 ∈ List.range' (dataAddr (atI 0xFFE [] .reset) 0) 3 ∧ Config.memSize ≤ 0x1000 ∧
      ∀ b ∈ List.range' (dataAddr (atI 0xFFE [] .reset) 0) 3, b < 0x1000 → b < Config.memSize := by decide

/-- StoreRegistersCopiesUpToX and LoadRegistersCopiesUpToX. -/
theorem test_witness_StoreAndLoadRegisters_in_range :
    (atI 0xFF0 [] .reset).mem.wf = true ∧
      dataAddr (atI 0xFF0 [] .reset) (15 : Reg).val < Config.memSize ∧
      dataAddr (atI 0xFFF [] .reset) (0 : Reg).val < Config.memSize := by decide
/-- StoreRegistersCopiesUpToX and LoadRegistersCopiesUpToX. -/
theorem test_witness_StoreAndLoadRegisters_out_of_range :
    (atI 0xFF1 [] .reset).mem.wf = true ∧
      0x1000 ∈ List.range' (dataAddr (atI 0xFF1 [] .reset) 0) ((15 : Reg).val + 1) ∧
      Config.memSize ≤ 0x1000 ∧
      ∀ b ∈ List.range' (dataAddr (atI 0xFF1 [] .reset) 0) ((15 : Reg).val + 1), b < 0x1000 →
        b < Config.memSize := by decide

theorem test_witness_StoreThenLoadRestoresRegisters :
    (regs [(2, 7)] (atI 0xFFD [] .reset)).mem.wf = true ∧
      ∃ t, exec (.ldMemVx 2) (regs [(2, 7)] (atI 0xFFD [] .reset)) = .next t ∧
        (regs [(2, 9)] { State.reset with mem := t.mem, idx := t.idx }).mem = t.mem ∧
        (regs [(2, 9)] { State.reset with mem := t.mem, idx := t.idx }).idx = t.idx :=
  ⟨by decide, exists_next (by decide)⟩

theorem test_witness_WaitForKeyStoresTheKey :
    (turn 0 0 (.key 0x0F) 0 .reset).hostTurn.keyWait = .key 0x0F ∧
      (0x0F#8).toNat ≤ 0x0F := by decide

theorem test_witness_WaitForKeyErrorsAndBlocks :
    (turn 0 0 (.error 9) 0 .reset).hostTurn.keyWait = .error 9 ∧
      (turn 0 0 .pending 0 .reset).hostTurn.keyWait = .pending := by decide

theorem test_witness_OnlyKeyCodesAreStored :
    ∃ t, exec (.ldVxK 3) (turn 0 0 (.key 0x0F) 0 .reset) = .next t ∧
      t.waiting = false := exists_next (by decide)

/-- The sides of the last clause: a call that is blocked, and one that is not. -/
theorem test_witness_WaitForKeyErrorsAndBlocks_blocked :
    executeOne (turn 0 0 .pending 0 (last 0xF30A)) = .next .blocked ∧
      (turn 0 0 .pending 0 (last 0xF30A)).fault = none ∧
      (turn 0 0 .pending 0 (last 0xF30A)).pc.toNat + 1 < Config.memSize ∧
      decode (turn 0 0 .pending 0 (last 0xF30A)).wordAtPC = .ok (.ldVxK 3) ∧
      (turn 0 0 .pending 0 (last 0xF30A)).keyWait = .pending :=
  ⟨eq_blocked (by decide), by decide⟩

/-- Two turns without a key. -/
def idle : State := { last 0xF30A with host := [⟨2, 0, .pending, 0⟩, ⟨1, 0, .pending, 7⟩] }

theorem test_witness_BlockedWaitHasNoTimeout :
    idle.fault = none ∧ idle.pc.toNat + 1 < Config.memSize ∧ decode idle.wordAtPC = .ok (.ldVxK 3) ∧
      2 ≤ idle.host.length ∧ ∀ h ∈ idle.host.take 2, h.keyWait = .pending := by decide

/-- A blocked turn is no CORE step, and the turn in which the key comes is one (R8). -/
theorem test_okSteps_blocked_then_key :
    okSteps 2 { idle with host := [⟨0, 0, .pending, 0⟩, ⟨0, 0, .key 4, 0⟩] } = 1 := by decide

theorem test_witness_DrawFlips_rows :
    15 ≤ 15 ∧ (15 = 0 ∨ dataAddr (atI 0xFF1 [] .reset) 0 + 15 ≤ Config.memSize) := by decide
theorem test_witness_DrawFlips_no_row :
    0 ≤ 15 ∧ (0 = 0 ∨ dataAddr (atI 0xFFF [] .reset) 0 + 0 ≤ Config.memSize) := by decide

theorem test_witness_DrawOutOfRangeFaults :
    0x1000 ∈ List.range' (dataAddr (atI 0xFF2 [] .reset) 0) 15 ∧ Config.memSize ≤ 0x1000 ∧
      ∀ b ∈ List.range' (dataAddr (atI 0xFF2 [] .reset) 0) 15, b < 0x1000 → b < Config.memSize := by decide

theorem test_witness_DrawTwiceRestoresDisplay :
    (List.replicate 15 (0xFF : Byte)).length ≤ 15 ∧ ∃ b ∈ List.replicate 15 (0xFF : Byte), b ≠ 0 := by
  decide

theorem test_witness_SpriteRowWrapsWithoutLoss :
    (4 : Fin 32).val ≠ 35 % 32 ∧ (3 : Fin 32).val = 35 % 32 ∧ 56 % 64 ≤ 56 := by decide

end Sys2Proof.Tests
end

section
/-! Jumps and compare skips (spec/41_control_flow.md): the next state of each, the frame of a skip, and
where a skip goes. -/

namespace Sys2Proof.Machine

/-! ### The next state -/

theorem exec_jp (nnn : BitVec 12) (s : State) :
    exec (.jp nnn) s = .next (s.writePC (addrImm nnn)) := rfl

theorem exec_seImm (x : Reg) (kk : Byte) (s : State) :
    exec (.seImm x kk) s = .next (s.skipIf (s.readV x == kk)) := rfl

theorem exec_sneImm (x : Reg) (kk : Byte) (s : State) :
    exec (.sneImm x kk) s = .next (s.skipIf (s.readV x != kk)) := rfl

theorem exec_seReg (x y : Reg) (s : State) :
    exec (.seReg x y) s = .next (s.skipIf (s.readV x == s.readV y)) := rfl

theorem exec_sneReg (x y : Reg) (s : State) :
    exec (.sneReg x y) s = .next (s.skipIf (s.readV x != s.readV y)) := rfl

/-! ### Skips -/

/-- Skipping or not, only `PC` is written. -/
theorem frame_skipIf (c : Bool) (s : State) : Frame [] [] [] s (s.skipIf c) :=
  frame_writePC s _

theorem skipIf_beq_pc (a b : Byte) (s : State) :
    (s.skipIf (a == b)).pc = if a = b then s.pc + 4 else s.pc + 2 := by
  simp only [skipIf_pc, beq_iff_eq]

theorem skipIf_bne_pc (a b : Byte) (s : State) :
    (s.skipIf (a != b)).pc = if a = b then s.pc + 2 else s.pc + 4 := by
  simp only [skipIf_pc, bne_iff_ne, ite_not]

/-! ### The obligations -/

/-- Settles O38: the jump writes `PC` alone, and a 12-bit immediate keeps its value in 16 bits. -/
theorem jumpSetsProgramCounter : Obligations.JumpSetsProgramCounter := by
  intro nnn s
  exact ⟨_, exec_jp nnn s, addrImm_toNat nnn, frame_writePC s _⟩

/-- Settles O43: each of the four is a skip on equality or on inequality. -/
theorem skipsCompare : Obligations.SkipsCompare := by
  intro x y kk s
  refine ⟨?seImm, ?sneImm, ?seReg, ?sneReg⟩
  case seImm => exact ⟨_, exec_seImm x kk s, frame_skipIf _ s, skipIf_beq_pc _ _ s⟩
  case sneImm => exact ⟨_, exec_sneImm x kk s, frame_skipIf _ s, skipIf_bne_pc _ _ s⟩
  case seReg => exact ⟨_, exec_seReg x y s, frame_skipIf _ s, skipIf_beq_pc _ _ s⟩
  case sneReg => exact ⟨_, exec_sneReg x y s, frame_skipIf _ s, skipIf_bne_pc _ _ s⟩

end Sys2Proof.Machine
end

section
/-! Moves, addition of an immediate and bitwise operations (spec/42_alu.md R141 to R146): the next state
of each is one register's write, then `PC` to the next instruction. -/

namespace Sys2Proof.Machine

/-! ### The next state -/

theorem exec_ldImm (x : Reg) (kk : Byte) (s : State) :
    exec (.ldImm x kk) s = .next (s.writeV x kk).advance := rfl

theorem exec_addImm (x : Reg) (kk : Byte) (s : State) :
    exec (.addImm x kk) s = .next (s.writeV x (s.readV x + kk)).advance := rfl

theorem exec_ldReg (x y : Reg) (s : State) :
    exec (.ldReg x y) s = .next (s.writeV x (s.readV y)).advance := rfl

theorem exec_orReg (x y : Reg) (s : State) :
    exec (.orReg x y) s = .next (s.writeV x (s.readV x ||| s.readV y)).advance := rfl

theorem exec_andReg (x y : Reg) (s : State) :
    exec (.andReg x y) s = .next (s.writeV x (s.readV x &&& s.readV y)).advance := rfl

theorem exec_xorReg (x y : Reg) (s : State) :
    exec (.xorReg x y) s = .next (s.writeV x (s.readV x ^^^ s.readV y)).advance := rfl

/-! ### One register's write -/

/-- An instruction whose next state is one register's write and the next `PC` completes with the value
written, and that register is all it changes. -/
theorem completes_of_exec_writeV {i : Instr} {s : State} {x : Reg} {b : Byte}
    (h : exec i s = .next (s.writeV x b).advance) :
    ∃ t, exec i s = .next t ∧ t.readV x = b ∧ t.pc = s.pc + 2 ∧ Frame [x] [] [] s t :=
  ⟨_, h, readV_writeV_same s x b, advance_pc _, frame_writeV s x b⟩

/-! ### The obligations -/

/-- Settles O31: each of the two is one register's write, and a byte's sum is modulo 256. -/
theorem immediateMoveAndAdd : Obligations.ImmediateMoveAndAdd := by
  intro x kk s
  refine ⟨completes_of_exec_writeV (exec_ldImm x kk s), ?addImm⟩
  case addImm =>
    obtain ⟨t, hnext, hx, hpc, hframe⟩ := completes_of_exec_writeV (exec_addImm x kk s)
    exact ⟨t, hnext, hx ▸ BitVec.toNat_add _ _, hpc, hframe⟩

/-- Settles O32: each of the four is one register's write, of `V[y]` or of the bitwise combination. -/
theorem registerMoveAndLogic : Obligations.RegisterMoveAndLogic := by
  intro x y s
  refine ⟨completes_of_exec_writeV (exec_ldReg x y s), ?orReg, ?andReg, ?xorReg⟩
  case orReg =>
    obtain ⟨t, hnext, hx, hpc, hframe⟩ := completes_of_exec_writeV (exec_orReg x y s)
    exact ⟨t, hnext, fun j => hx ▸ BitVec.getLsbD_or, hpc, hframe⟩
  case andReg =>
    obtain ⟨t, hnext, hx, hpc, hframe⟩ := completes_of_exec_writeV (exec_andReg x y s)
    exact ⟨t, hnext, fun j => hx ▸ BitVec.getLsbD_and, hpc, hframe⟩
  case xorReg =>
    obtain ⟨t, hnext, hx, hpc, hframe⟩ := completes_of_exec_writeV (exec_xorReg x y s)
    exact ⟨t, hnext, fun j => hx ▸ BitVec.getLsbD_xor, hpc, hframe⟩

end Sys2Proof.Machine
end

section
/-! The index register (spec/43_index_memory.md R170 to R172): the next state of each instruction that
sets `I` is one write of `I`, masked to 12 bits, then `PC` to the next instruction. -/

namespace Sys2Proof.Machine

/-! ### The next state -/

theorem exec_ldI (nnn : BitVec 12) (s : State) :
    exec (.ldI nnn) s = .next (s.writeI (addrImm nnn)).advance := rfl

theorem exec_addI (x : Reg) (s : State) :
    exec (.addI x) s = .next (s.writeI (indexSum s x)).advance := rfl

theorem exec_ldF (x : Reg) (s : State) :
    exec (.ldF x) s = .next (s.writeI (glyphAddr (s.readV x))).advance := rfl

/-! ### The value written -/

/-- The sum wraps at 16 bits, which is a multiple of the 12 bits that `I` keeps. -/
theorem indexSum_toNat_mod (s : State) (x : Reg) :
    (indexSum s x).toNat % 4096 = (s.idx.toNat + (s.readV x).toNat) % 4096 := by
  have hx : ((s.readV x).setWidth 16).toNat = (s.readV x).toNat :=
    BitVec.toNat_setWidth_of_le (by decide)
  rw [indexSum, BitVec.toNat_add, hx, Nat.mod_mod_of_dvd _ (by decide)]

/-- A glyph's address is at most 75, so the 16-bit product does not wrap. -/
theorem glyphAddr_toNat (b : Byte) : (glyphAddr b).toNat = b.toNat % 16 * 5 := by
  have hdigit : (b &&& 0x0F#8).toNat = b.toNat % 16 := by
    rw [BitVec.toNat_and]
    exact Nat.and_two_pow_sub_one_eq_mod b.toNat 4
  have hzext : ((b &&& 0x0F#8).setWidth 16).toNat = b.toNat % 16 := by
    rw [BitVec.toNat_setWidth_of_le (by decide), hdigit]
  have hfive : (5 : Word).toNat = 5 := rfl
  rw [glyphAddr, BitVec.toNat_mul, hzext, hfive, Nat.mod_eq_of_lt (by omega)]

/-! ### One write of `I` -/

theorem frame_writeI (s : State) (a : Word) : Frame [] [.idx] [] s (s.writeI a).advance := by
  apply frame_of <;> simp

/-- An instruction whose next state is one write of `I` and the next `PC` completes with the value
written, modulo 4096, and `I` is all it changes. -/
theorem completes_of_exec_writeI {i : Instr} {s : State} {a : Word} {n : Nat}
    (h : exec i s = .next (s.writeI a).advance) (hn : a.toNat % 4096 = n) :
    ∃ t, exec i s = .next t ∧ t.idx.toNat = n ∧ t.pc = s.pc + 2 ∧ Frame [] [.idx] [] s t :=
  ⟨_, h, (writeI_toNat s a).trans hn, advance_pc _, frame_writeI s a⟩

/-! ### The obligation -/

/-- Settles O45: each of the three is one write of `I`; an immediate and a glyph's address fit its 12 bits,
and the sum is taken modulo 4096. -/
theorem indexOperations : Obligations.IndexOperations := by
  intro nnn x s
  refine ⟨completes_of_exec_writeI (exec_ldI nnn s) ?ldI,
    completes_of_exec_writeI (exec_addI x s) (indexSum_toNat_mod s x),
    completes_of_exec_writeI (exec_ldF x s) ?ldF⟩
  case ldI => rw [addrImm_toNat, Nat.mod_eq_of_lt nnn.isLt]
  case ldF => rw [glyphAddr_toNat, Nat.mod_eq_of_lt (by omega)]

end Sys2Proof.Machine
end

section
/-! The timers (spec/44_io_timers.md R192, R194, R195): reading `DT` is one register's write; setting a
timer is one write of `DT` or `ST`, then `PC` to the next instruction. -/

namespace Sys2Proof.Machine

/-! ### The next state -/

theorem exec_ldVxDT (x : Reg) (s : State) :
    exec (.ldVxDT x) s = .next (s.writeV x s.dt).advance := rfl

theorem exec_ldDTVx (x : Reg) (s : State) :
    exec (.ldDTVx x) s = .next (State.advance { s with dt := s.readV x }) := rfl

theorem exec_ldSTVx (x : Reg) (s : State) :
    exec (.ldSTVx x) s = .next (State.advance { s with st := s.readV x }) := rfl

/-! ### One timer's write -/

theorem frame_setDT (s : State) (b : Byte) :
    Frame [] [.dt] [] s (State.advance { s with dt := b }) := by
  apply frame_of <;> simp [State.readV]

theorem frame_setST (s : State) (b : Byte) :
    Frame [] [.st] [] s (State.advance { s with st := b }) := by
  apply frame_of <;> simp [State.readV]

/-! ### The obligation -/

/-- Settles O51: the first is one register's write, of `DT`; the other two are one timer's write each. -/
theorem timerAccess : Obligations.TimerAccess := by
  intro x s
  refine ⟨completes_of_exec_writeV (exec_ldVxDT x s), ?ldDTVx, ?ldSTVx⟩
  case ldDTVx => exact ⟨_, exec_ldDTVx x s, advance_dt _, advance_pc _, frame_setDT s _⟩
  case ldSTVx => exact ⟨_, exec_ldSTVx x s, advance_st _, advance_pc _, frame_setST s _⟩

end Sys2Proof.Machine
end

section
/-! Clear-screen (spec/45_display.md R210): one write of the whole display, then `PC` to the next
instruction. -/

namespace Sys2Proof.Machine

/-! ### The next state -/

theorem exec_cls (s : State) :
    exec .cls s = .next (State.advance { s with disp := Display.clear }) := rfl

/-! ### One write of the display -/

theorem frame_setDisp (s : State) (d : Display) :
    Frame [] [.disp] [] s (State.advance { s with disp := d }) := by
  apply frame_of <;> simp [State.readV]

/-! ### The obligation -/

/-- Settles O56: the clear display is the one part written, and each of its rows is 0. -/
theorem clearScreenZeroesDisplay : Obligations.ClearScreenZeroesDisplay := by
  intro s
  have hrows (r : Fin 32) : (State.advance { s with disp := Display.clear }).disp.row r = 0 := by
    rw [advance_disp]
    exact row_clear r
  exact ⟨_, exec_cls s, hrows, advance_pc _, frame_setDisp s _⟩

end Sys2Proof.Machine
end

section
/-! Encoding (spec/30_encoding.md): a word with known fields is its format's word, so decoding and encoding
are inverse; the unassigned words; the opcode table's rows, told apart by their group. -/

namespace Sys2Proof

/-! ### A word with known fields is the format's word (R71, R72) -/

theorem fmtNNN_of_fields {w : Word} {o : BitVec 4} (ho : (fieldO w).toNat = o.toNat) :
    fmtNNN o (fieldNNN w) = w := by
  rw [← BitVec.eq_of_toNat_eq ho, fmtNNN_fields]

theorem fmtXKK_of_fields {w : Word} {o : BitVec 4} (ho : (fieldO w).toNat = o.toNat) :
    fmtXKK o (fieldX w) (fieldKK w) = w := by
  rw [← BitVec.eq_of_toNat_eq ho, fmtXKK_fields]

theorem fmtXKK_of_fields_kk {w : Word} {o : BitVec 4} {kk : Byte}
    (ho : (fieldO w).toNat = o.toNat) (hk : (fieldKK w).toNat = kk.toNat) :
    fmtXKK o (fieldX w) kk = w := by
  rw [← BitVec.eq_of_toNat_eq hk, fmtXKK_of_fields ho]

theorem fmtXYN_of_fields_n {w : Word} {o n : BitVec 4}
    (ho : (fieldO w).toNat = o.toNat) (hn : (fieldN w).toNat = n.toNat) :
    fmtXYN o (fieldX w) (fieldY w) n = w := by
  rw [← BitVec.eq_of_toNat_eq ho, ← BitVec.eq_of_toNat_eq hn, fmtXYN_fields]

/-! ### A decoded word is its instruction's word -/

theorem encode_of_decodeGroup0 {w : Word} {i : Instr} (h : decodeGroup0 w = .ok i) :
    i.wellFormed = true ∧ encode i = w := by
  unfold decodeGroup0 at h
  split at h
  next hw => cases h; exact ⟨rfl, hw.symm⟩
  next =>
    split at h
    next hw => cases h; exact ⟨rfl, hw.symm⟩
    next => cases h

theorem encode_of_decodeGroup8 {w : Word} {i : Instr} (ho : (fieldO w).toNat = 0x8)
    (h : decodeGroup8 w = .ok i) : i.wellFormed = true ∧ encode i = w := by
  unfold decodeGroup8 at h
  split at h <;> cases h <;> exact ⟨rfl, fmtXYN_of_fields_n ho ‹_›⟩

theorem encode_of_decodeGroupE {w : Word} {i : Instr} (ho : (fieldO w).toNat = 0xE)
    (h : decodeGroupE w = .ok i) : i.wellFormed = true ∧ encode i = w := by
  unfold decodeGroupE at h
  split at h <;> cases h <;> exact ⟨rfl, fmtXKK_of_fields_kk ho ‹_›⟩

theorem encode_of_decodeGroupF {w : Word} {i : Instr} (ho : (fieldO w).toNat = 0xF)
    (h : decodeGroupF w = .ok i) : i.wellFormed = true ∧ encode i = w := by
  unfold decodeGroupF at h
  split at h <;> cases h <;> exact ⟨rfl, fmtXKK_of_fields_kk ho ‹_›⟩

/-- Each group's instruction keeps the fields its format has, so its word is the word decoded. -/
theorem encode_of_decode {w : Word} {i : Instr} (h : decode w = .ok i) :
    i.wellFormed = true ∧ encode i = w := by
  unfold decode at h
  split at h
  next => exact encode_of_decodeGroup0 h
  next ho => cases h; exact ⟨rfl, fmtNNN_of_fields ho⟩
  next ho => cases h; exact ⟨rfl, fmtNNN_of_fields ho⟩
  next ho => cases h; exact ⟨rfl, fmtXKK_of_fields ho⟩
  next ho => cases h; exact ⟨rfl, fmtXKK_of_fields ho⟩
  next ho =>
    split at h
    next hn => cases h; exact ⟨rfl, fmtXYN_of_fields_n ho (congrArg _ hn)⟩
    next => cases h
  next ho => cases h; exact ⟨rfl, fmtXKK_of_fields ho⟩
  next ho => cases h; exact ⟨rfl, fmtXKK_of_fields ho⟩
  next ho => exact encode_of_decodeGroup8 ho h
  next ho =>
    split at h
    next hn => cases h; exact ⟨rfl, fmtXYN_of_fields_n ho (congrArg _ hn)⟩
    next => cases h
  next ho => cases h; exact ⟨rfl, fmtNNN_of_fields ho⟩
  next ho => cases h; exact ⟨rfl, fmtNNN_of_fields ho⟩
  next ho => cases h; exact ⟨rfl, fmtXKK_of_fields ho⟩
  next ho =>
    cases h
    have hn := (fieldN w).isLt
    refine ⟨decide_eq_true (Nat.le_of_lt_succ hn), fmtXYN_of_fields_n ho ?_⟩
    rw [BitVec.ofNat_toNat, BitVec.setWidth_eq]
  next ho => exact encode_of_decodeGroupE ho h
  next =>
    have hlt := (fieldO w).isLt
    refine encode_of_decodeGroupF ?_ h
    simp only [imp_false] at *
    omega

/-- Settles O2: case by case of the decoder, the word is its format's word of its own fields. -/
theorem decodedWordIsItsEncoding : Obligations.DecodedWordIsItsEncoding :=
  fun _ _ h => encode_of_decode h

/-- Settles O1: the fields of an instruction's word are its operands and its fixed bits, which the decoder
discriminates on. -/
theorem decodeOfEncode : Obligations.DecodeOfEncode := by
  intro i hi
  cases i
  case cls | ret => rfl
  case drw x y n =>
    have hle : n ≤ 15 := by simpa [Instr.wellFormed] using hi
    have hn : n % 16 = n := Nat.mod_eq_of_lt (Nat.lt_succ_of_le hle)
    simp [encode, decode, hn]
  all_goals simp [encode, decode, decodeGroup8, decodeGroupE, decodeGroupF]

/-! ### The unassigned words (R76 to R80) -/

theorem decodeGroup0_unknown_iff {w : Word} :
    decodeGroup0 w = .error (.unknownOpcode w) ↔ w ≠ 0x00E0 ∧ w ≠ 0x00EE := by
  unfold decodeGroup0
  split
  · simp_all
  · split <;> simp_all

theorem decodeGroup8_unknown_iff {w : Word} :
    decodeGroup8 w = .error (.unknownOpcode w) ↔
      fieldN w ∈ [0x8#4, 0x9#4, 0xA#4, 0xB#4, 0xC#4, 0xD#4, 0xF#4] := by
  have hlt := (fieldN w).isLt
  unfold decodeGroup8
  simp only [List.mem_cons, ← BitVec.toNat_inj]
  split <;> simp_all
  omega

theorem decodeGroupE_unknown_iff {w : Word} :
    decodeGroupE w = .error (.unknownOpcode w) ↔ fieldKK w ∉ [0x9E#8, 0xA1#8] := by
  unfold decodeGroupE
  simp only [List.mem_cons, ← BitVec.toNat_inj]
  split <;> simp_all

theorem decodeGroupF_unknown_iff {w : Word} :
    decodeGroupF w = .error (.unknownOpcode w) ↔ fieldKK w ∉
      [0x07#8, 0x0A#8, 0x15#8, 0x18#8, 0x1E#8, 0x29#8, 0x33#8, 0x55#8, 0x65#8] := by
  unfold decodeGroupF
  simp only [List.mem_cons, ← BitVec.toNat_inj]
  split <;> simp_all

/-- The one error the decoder gives is `UnknownOpcode` of the word itself. -/
theorem decode_error {w : Word} {e : DecodeError} (h : decode w = .error e) :
    e = .unknownOpcode w := by
  unfold decode decodeGroup0 decodeGroup8 decodeGroupE decodeGroupF at h
  grind

/-- Settles O3: the decoder has one error; it is given in the groups that discriminate further, each on the
words its own lemma lists. -/
theorem unknownOpcodesAreExactlyTheUnassigned :
    Obligations.UnknownOpcodesAreExactlyTheUnassigned := by
  intro w
  refine ⟨?total, ?unassigned⟩
  case total =>
    cases h : decode w with
    | ok i => exact .inl ⟨i, rfl⟩
    | error e => exact .inr (by rw [decode_error h])
  case unassigned =>
    have hlt := (fieldO w).isLt
    unfold decode
    simp only [← BitVec.toNat_inj (x := fieldO w)]
    split
    case h_16 =>
      have ho : (fieldO w).toNat = 15 := by simp only [imp_false] at *; omega
      simp [ho, decodeGroupF_unknown_iff]
    all_goals
      simp [*, decodeGroup0_unknown_iff, decodeGroup8_unknown_iff, decodeGroupE_unknown_iff]

/-! ### The rows of the opcode table -/

open Laws.FollowsTable in
/-- The encoder gives every instruction the fixed bits of its row. -/
theorem encode_fits_row (i : Instr) : encode i &&& (opcodeRow i).2 = (opcodeRow i).1 := by
  cases i
  case cls | ret => rfl
  case jp | call | ldI | jpV0 => exact nnn_row _ _
  case seImm | sneImm | ldImm | addImm | rnd => exact xkk_row _ _ _
  case drw => exact xyn_row _ _ _ _
  case skp | sknp | ldVxDT | ldVxK | ldDTVx | ldSTVx | addI | ldF | ldB | ldMemVx | ldVxMem =>
    exact xs_row _ _ _
  all_goals exact xys_row _ _ _ _

/-- The mask of every row of a group: the group alone says which bits of a word are fixed. -/
def groupMask (o : BitVec 4) : Word :=
  match o.toNat with
  | 0x0 => 0xFFFF#16
  | 0x5 | 0x8 | 0x9 => 0xF00F#16
  | 0xE | 0xF => 0xF0FF#16
  | _ => 0xF000#16

theorem opcodeRow_mask (i : Instr) : (opcodeRow i).2 = groupMask (fieldO (opcodeRow i).1) := by
  cases i <;> simp only [opcodeRow] <;> decide

/-- Every mask fixes the group. -/
theorem fieldO_opcodeRow_mask (i : Instr) : fieldO (opcodeRow i).2 = BitVec.allOnes 4 := by
  cases i <;> simp only [opcodeRow] <;> decide

theorem fieldO_and (w m : Word) : fieldO (w &&& m) = fieldO w &&& fieldO m :=
  BitVec.extractLsb'_and

/-- A row that a word fits has the mask of the word's own group. -/
theorem opcodeRow_mask_of_fits {w : Word} {i : Instr}
    (h : w &&& (opcodeRow i).2 = (opcodeRow i).1) : (opcodeRow i).2 = groupMask (fieldO w) := by
  rw [opcodeRow_mask, ← h, fieldO_and, fieldO_opcodeRow_mask, BitVec.and_allOnes]

/-- Settles O4: a decoded word is its instruction's word; and two rows that a word fits have one mask, the
one of the word's group, so they have one match. -/
theorem opcodeTableRowsDoNotOverlap : Obligations.OpcodeTableRowsDoNotOverlap := by
  refine ⟨?fits, ?overlap⟩
  case fits =>
    intro w i h
    rw [← (encode_of_decode h).2]
    exact encode_fits_row i
  case overlap =>
    intro w i j hi hj
    have hmask : (opcodeRow i).2 = (opcodeRow j).2 :=
      (opcodeRow_mask_of_fits hi).trans (opcodeRow_mask_of_fits hj).symm
    exact Prod.ext (by rw [← hi, ← hj, hmask]) hmask

/-! ### An instruction's bytes (R53, R70) -/

theorem decodeBytes_encodeBytes_append {i : Instr} (h : i.wellFormed = true) (rest : List Byte) :
    decodeBytes (encodeBytes i ++ rest) = .ok (i, rest) := by
  simp [decodeBytes, encodeBytes, decodeOfEncode i h]

theorem encodeBytes_eq (i : Instr) :
    encodeBytes i = [BitVec.ofNat 8 ((encode i).toNat / 256), BitVec.ofNat 8 (encode i).toNat] := by
  have hlt := (encode i).isLt
  have hhi : hiByte (encode i) = BitVec.ofNat 8 ((encode i).toNat / 256) :=
    BitVec.eq_of_toNat_eq (by rw [hiByte_toNat, BitVec.toNat_ofNat]; omega)
  have hlo : loByte (encode i) = BitVec.ofNat 8 (encode i).toNat :=
    BitVec.eq_of_toNat_eq (by rw [loByte_toNat, BitVec.toNat_ofNat])
  rw [encodeBytes, hhi, hlo]

@[simp] theorem tableWord_toNat (w : Word) : tableWord 16 w.toNat = w := by
  rw [tableWord, Nat.mod_eq_of_lt w.isLt, BitVec.ofNat_toNat, BitVec.setWidth_eq]

theorem decodeTableWord_encode {i : Instr} (h : i.wellFormed = true) :
    decodeTableWord 16 (encode i).toNat = some i := by
  have hbytes := decodeBytes_encodeBytes_append h []
  rw [List.append_nil, encodeBytes] at hbytes
  rw [decodeTableWord, tableWord_toNat, hbytes]

/-- Settles O5: the two bytes join to the word again, which decodes to the instruction. -/
theorem instructionBytesDecode : Obligations.InstructionBytesDecode :=
  fun i rest h =>
    ⟨decodeBytes_encodeBytes_append h rest, encodeBytes_eq i, decodeTableWord_encode h⟩

/-- Settles O6, by evaluating the decoder on the ten words. -/
theorem sampleWordsDecode : Obligations.SampleWordsDecode := by
  unfold Obligations.SampleWordsDecode
  decide

/-! ### The shifts' words -/

/-- The decoder takes any `y` in the word of a shift (R83). -/
theorem decode_shift_word {w : Word} (ho : fieldO w = 0x8) :
    (fieldN w = 0x6 → decode w = .ok (.shr (fieldX w) (fieldY w))) ∧
      (fieldN w = 0xE → decode w = .ok (.shl (fieldX w) (fieldY w))) := by
  constructor <;> intro hn <;> simp [decode, decodeGroup8, ho, hn]

end Sys2Proof
end

section
/-! Fetch, the call and the step (spec/40_decode_dispatch.md, spec/60_exceptions.md): what a call and a step
answer in each case of the state, which faults an instruction can raise, and that a fault ends the run. -/

namespace Sys2Proof.Machine

/-! ### Fetch (R53, R247) -/

theorem fetch_of_first_out {σ : Type} {s : State} (h : Config.memSize ≤ s.pc.toNat)
    (k : Word → Host.Outcome σ Fault Refusal) :
    fetch s k = .fault (.memoryOutOfBounds s.pc.toNat) := by
  rw [fetch_of_ge (by omega), max_eq_left h]

theorem fetch_of_second_out {σ : Type} {s : State} (h : s.pc.toNat < Config.memSize)
    (h' : Config.memSize ≤ s.pc.toNat + 1) (k : Word → Host.Outcome σ Fault Refusal) :
    fetch s k = .fault (.memoryOutOfBounds (s.pc.toNat + 1)) := by
  rw [fetch_of_ge h', max_eq_right (by omega), show Config.memSize = s.pc.toNat + 1 by omega]

/-- Settles O7: in range the word is the two bytes joined; out of range the lower address is named. -/
theorem fetchReadsBigEndianWord : Obligations.FetchReadsBigEndianWord := by
  intro σ s k
  refine ⟨fun h => ⟨s.wordAtPC, wordOfBytes_toNat _ _, fetch_of_lt h k⟩, ?_, ?_⟩
  · exact fun h => fetch_of_first_out h k
  · exact fun h h' => fetch_of_second_out h h' k

/-! ### One call of `execute_one`, case by case (R100, R247) -/

theorem executeOne_of_some {s : State} {f : Fault} (hf : s.fault = some f) :
    executeOne s = .fault f := by
  simp [executeOne, callWith, hf]

theorem executeOne_of_none {s : State} (hf : s.fault = none) :
    executeOne s = fetch s fun w => decodeThen w fun i => endOfCall i (exec i s) := by
  simp [executeOne, callWith, hf]

theorem executeOne_of_unknown {s : State} {e : DecodeError} (hf : s.fault = none)
    (hpc : s.pc.toNat + 1 < Config.memSize) (hd : decode s.wordAtPC = .error e) :
    executeOne s = .fault (.unknownOpcode s.wordAtPC) := by
  rw [executeOne_of_none hf, fetch_of_lt hpc, decodeThen_error hd]

theorem executeOne_of_decode {s : State} {i : Instr} (hf : s.fault = none)
    (hpc : s.pc.toNat + 1 < Config.memSize) (hd : decode s.wordAtPC = .ok i) :
    executeOne s = endOfCall i (exec i s) := by
  rw [executeOne_of_none hf, fetch_of_lt hpc, decodeThen_ok hd]

/-- An executed instruction that is not a wait-for-key without a key ends the call with its next state. -/
theorem endOfCall_of_next {i : Instr} {s t : State} (hk : ∀ x, i = .ldVxK x → s.keyWait ≠ .pending)
    (h : exec i s = .next t) : endOfCall i (exec i s) = .next (.ok t) := by
  obtain ⟨x, hi, hp, -, -⟩ | ⟨-, ⟨u, hu, hend⟩ | ⟨f, hf, -⟩ | ⟨r, hr, -⟩⟩ := endOfCall_exec_cases i s
  · exact absurd hp (hk x hi)
  · rw [hend, show u = t by rw [h] at hu; cases hu; rfl]
  · rw [h] at hf; cases hf
  · rw [h] at hr; cases hr

/-! ### One step, case by case -/

theorem step_of_fault {s : State} {f : Fault} (h : executeOne s.beginTurn = .fault f) :
    step s = .fault f := by
  simp [step, h, State.shown, finishTurn]

theorem step_of_decode {s : State} {i : Instr} (hf : s.fault = none)
    (hpc : s.pc.toNat + 1 < Config.memSize) (hd : decode s.wordAtPC = .ok i) :
    step s = finishTurn (exec i s.beginTurn) := by
  have hcall : executeOne s.beginTurn = endOfCall i (exec i s.beginTurn) :=
    executeOne_of_decode hf hpc hd
  rw [step, hcall, shown_endOfCall]

@[simp] theorem beginTurn_keyWait (s : State) : s.beginTurn.keyWait = s.keyWait := rfl

/-- Settles O8: fetch and decode answer the instruction, and unless it waits without a key its next state
ends the call, and with it the one CORE step of the turn. -/
theorem stepRunsDecodedInstruction : Obligations.StepRunsDecodedInstruction := by
  intro s i hf hpc hd
  have hcall : executeOne s = endOfCall i (exec i s) := executeOne_of_decode hf hpc hd
  refine ⟨hcall, step_of_decode hf hpc hd, fun hk => ⟨?call, ?turn⟩⟩
  case call => exact fun t ht => hcall.trans (endOfCall_of_next hk ht)
  case turn =>
    intro t ht
    have hok : executeOne s.beginTurn = .next (.ok t) :=
      (executeOne_of_decode (s := s.beginTurn) hf hpc hd).trans (endOfCall_of_next hk ht)
    simp [okSteps, okStepsWith, hok]

/-! ### The host's turn (R258) -/

/-- `n` ticks one by one are the countdown by `n`. -/
theorem iterate_tick (n : Nat) (t : Byte) : tick^[n] t = timerAfter n t := by
  apply BitVec.eq_of_toNat_eq
  rw [timerAfter_toNat]
  induction n generalizing t with
  | zero => rfl
  | succ n ih => rw [Function.iterate_succ_apply, ih, tick_toNat]; omega

/-- Settles O9: both halves of the turn are one record update each, and the update of a timer is the turn's
number of ticks. -/
theorem hostTurnOnlyTicksTimers : Obligations.HostTurnOnlyTicksTimers :=
  fun _ => ⟨(iterate_tick _ _).symm, (iterate_tick _ _).symm, rfl, rfl, tick_toNat⟩

/-! ### The order of faults, and what a fault leaves (R242, R247) -/

/-- Settles O10: the call tests the bytes at `PC`, then the word, then executes. -/
theorem faultPriorityIsFetchDecodeExecute : Obligations.FaultPriorityIsFetchDecodeExecute := by
  intro s hf
  refine ⟨?first, ?second, ?decode, ?execute⟩
  case first => exact fun h => (executeOne_of_none hf).trans (fetch_of_first_out h _)
  case second => exact fun h h' => (executeOne_of_none hf).trans (fetch_of_second_out h h' _)
  case decode => exact fun hpc e he => executeOne_of_unknown hf hpc he
  case execute => exact fun hpc i f hd h => (executeOne_of_decode hf hpc hd).trans (endOfCall_eq_fault.2 h)

theorem stateAfter_of_fault {s : State} {f : Fault} (h : executeOne s = .fault f) :
    stateAfter s = s.recordFault f := by
  rw [stateAfter, h]
  rfl

/-- Settles O11: the call faults at decode, and a fault is recorded alone. -/
theorem unknownOpcodeWritesNothing : Obligations.UnknownOpcodeWritesNothing := by
  intro s hf hpc hd
  have hcall := executeOne_of_unknown hf hpc hd
  exact ⟨hcall, (stateAfter_of_fault hcall).trans (recordFault_of_none hf _)⟩

/-- The state after a faulting call holds the fault: the one set before, or the one just recorded. -/
theorem fault_stateAfter {s : State} {f : Fault} (h : executeOne s = .fault f) :
    (stateAfter s).fault = some f := by
  rw [stateAfter_of_fault h]
  cases hs : s.fault with
  | none => rw [recordFault_of_none hs]
  | some g =>
    rw [recordFault_of_some hs, hs]
    rw [executeOne_of_some hs] at h
    cases h
    rfl

/-- Settles O12: the fault is recorded, and a state that holds one answers it and stays. -/
theorem faultedStateIsTerminal : Obligations.FaultedStateIsTerminal := by
  intro s f h
  have hf := fault_stateAfter h
  have hcall : executeOne (stateAfter s) = .fault f := executeOne_of_some hf
  refine ⟨?recorded, hcall, step_of_fault (executeOne_of_some hf), ?stays⟩
  case recorded => exact fun hnone => (stateAfter_of_fault h).trans (recordFault_of_none hnone f)
  case stays => exact (stateAfter_of_fault hcall).trans (recordFault_of_some hf f)

/-! ### The instructions that can fault, by the operation that raises it -/

theorem exec_ret (s : State) : exec .ret s = pop s fun a t => .next (t.writePC a) := rfl

theorem exec_call (nnn : BitVec 12) (s : State) :
    exec (.call nnn) s = push s (s.pc + 2) fun t => .next (t.writePC (addrImm nnn)) := rfl

theorem exec_ldVxK (x : Reg) (s : State) : exec (.ldVxK x) s = execLdVxK x s := rfl

theorem exec_drw (x y : Reg) (n : Nat) (s : State) :
    exec (.drw x y n) s = checkRange (dataAddr s 0) n
      (.next (drawSprite s x y (s.mem.readBytes (dataAddr s 0) n)).advance) := rfl

theorem exec_ldB (x : Reg) (s : State) : exec (.ldB x) s = storeAtI s (bcdDigits (s.readV x)) := rfl

theorem exec_ldMemVx (x : Reg) (s : State) : exec (.ldMemVx x) s = storeAtI s (regsUpTo s x) := rfl

theorem exec_ldVxMem (x : Reg) (s : State) :
    exec (.ldVxMem x) s
      = checkRange (dataAddr s 0) (x.val + 1) (.next (loadRegsUpTo s x).advance) := rfl

theorem storeAtI_of_le {s : State} {bs : List Byte} (h : dataAddr s 0 + bs.length ≤ Config.memSize) :
    storeAtI s bs = .next (State.advance { s with mem := s.mem.writeBytes (dataAddr s 0) bs }) :=
  checkRange_of_le (.inr h)

theorem storeAtI_of_gt {s : State} {bs : List Byte} (hne : bs.length ≠ 0)
    (h : Config.memSize < dataAddr s 0 + bs.length) :
    storeAtI s bs = .fault (.memoryOutOfBounds (max (dataAddr s 0) Config.memSize)) :=
  checkRange_of_gt hne h

/-! ### Which instruction raises which fault (R241) -/

/-- The faults an instruction's own meaning can raise. -/
def RaisedBy (i : Instr) (s : State) (f : Fault) : Prop :=
  (∃ a, f = .memoryOutOfBounds a ∧
    ((∃ x y n, i = .drw x y n) ∨ (∃ x, i = .ldB x ∨ i = .ldMemVx x ∨ i = .ldVxMem x))) ∨
  (∃ nnn, f = .stackOverflow s.pc ∧ i = .call nnn) ∨
  (f = .stackUnderflow s.pc ∧ i = .ret) ∨
  (∃ e x, f = .inputSourceError e ∧ i = .ldVxK x)

/-- Every instruction completes or raises a fault of its own. -/
theorem exec_outcome (i : Instr) (s : State) :
    (∃ t, exec i s = .next t) ∨ ∃ f, exec i s = .fault f ∧ RaisedBy i s f := by
  cases i
  case ret =>
    obtain ⟨-, h⟩ | ⟨a, rest, -, h⟩ := pop_cases s fun a t => .next (t.writePC a)
    · exact .inr ⟨_, h, .inr (.inr (.inl ⟨rfl, rfl⟩))⟩
    · exact .inl ⟨_, h⟩
  case call nnn =>
    obtain ⟨-, h⟩ | ⟨-, h⟩ := push_cases s (s.pc + 2) fun t => .next (t.writePC (addrImm nnn))
    · exact .inr ⟨_, h, .inr (.inl ⟨nnn, rfl, rfl⟩)⟩
    · exact .inl ⟨_, h⟩
  case ldVxK x =>
    obtain ⟨-, h⟩ | ⟨k, -, h⟩ | ⟨e, -, h⟩ := execLdVxK_cases x s
    · exact .inl ⟨_, h⟩
    · exact .inl ⟨_, h⟩
    · exact .inr ⟨_, h, .inr (.inr (.inr ⟨e, x, rfl, rfl⟩))⟩
  case drw x y n =>
    obtain ⟨-, h⟩ | ⟨-, -, h⟩ := checkRange_cases (dataAddr s 0) n
      (.next (drawSprite s x y (s.mem.readBytes (dataAddr s 0) n)).advance)
    · exact .inl ⟨_, h⟩
    · exact .inr ⟨_, h, .inl ⟨_, rfl, .inl ⟨x, y, n, rfl⟩⟩⟩
  case ldB x =>
    obtain ⟨-, h⟩ | ⟨-, -, h⟩ := storeAtI_cases s (bcdDigits (s.readV x))
    · exact .inl ⟨_, h⟩
    · exact .inr ⟨_, h, .inl ⟨_, rfl, .inr ⟨x, .inl rfl⟩⟩⟩
  case ldMemVx x =>
    obtain ⟨-, h⟩ | ⟨-, -, h⟩ := storeAtI_cases s (regsUpTo s x)
    · exact .inl ⟨_, h⟩
    · exact .inr ⟨_, h, .inl ⟨_, rfl, .inr ⟨x, .inr (.inl rfl)⟩⟩⟩
  case ldVxMem x =>
    obtain ⟨-, h⟩ | ⟨-, -, h⟩ := checkRange_cases (dataAddr s 0) (x.val + 1)
      (.next (loadRegsUpTo s x).advance)
    · exact .inl ⟨_, h⟩
    · exact .inr ⟨_, h, .inl ⟨_, rfl, .inr ⟨x, .inr (.inr rfl)⟩⟩⟩
  all_goals exact .inl ⟨_, rfl⟩

theorem exec_fault {i : Instr} {s : State} {f : Fault} (h : exec i s = .fault f) : RaisedBy i s f := by
  obtain ⟨t, ht⟩ | ⟨g, hg, hraised⟩ := exec_outcome i s
  · rw [h] at ht; cases ht
  · rw [h] at hg; cases hg; exact hraised

theorem reset_inv : State.reset.Inv :=
  ⟨rfl, by decide, by decide, fun h => by cases h⟩

/-- Settles O17: at reset memory lists nothing, `I` and `SP` are 0 and nothing waits. -/
theorem resetMeetsInvariant : Obligations.ResetMeetsInvariant := reset_inv

/-- `I` at the last address: every access of two or more bytes there is out of range. -/
def stateWithIndexAtEnd : State := { State.reset with idx := 0xFFF }

/-- A call stack with no room left. -/
def stateWithFullStack : State := { State.reset with stack := List.replicate 16 0 }

/-- A host whose next read of a key fails. -/
def stateWithKeyError (e : HostError) : State := { State.reset with host := [⟨0, 0, .error e, 0⟩] }

theorem stateWithIndexAtEnd_inv : stateWithIndexAtEnd.Inv :=
  ⟨rfl, by decide, by decide, fun h => by cases h⟩

theorem stateWithFullStack_inv : stateWithFullStack.Inv :=
  ⟨rfl, by decide, by decide, fun h => by cases h⟩

theorem stateWithKeyError_inv (e : HostError) : (stateWithKeyError e).Inv :=
  ⟨rfl, reset_inv.idx_masked, reset_inv.sp_bounded, fun h => by cases h⟩

/-- Settles O13: an instruction completes or raises a fault of its own, a call's fault is one of fetch,
decode or the instruction, and a state after each of these kinds raises each fault. -/
theorem onlyListedInstructionsFault : Obligations.OnlyListedInstructionsFault := by
  refine ⟨fun i s f h => exec_fault h, ?completes, ?call, ?memory, ?overflow, ?underflow, ?key⟩
  case completes =>
    intro i s hdrw hmem hcall hret
    obtain h | ⟨f, -, hraised⟩ := exec_outcome i s
    · exact h
    · obtain ⟨a, -, ⟨x, y, n, hi⟩ | ⟨x, hi⟩⟩ | ⟨nnn, -, hi⟩ | ⟨-, hi⟩ | ⟨e, x, -, hi⟩ := hraised
      · exact absurd hi (hdrw x y n)
      · obtain ⟨hB, hstore, hload, -⟩ := hmem x
        obtain hi | hi | hi := hi
        · exact absurd hi hB
        · exact absurd hi hstore
        · exact absurd hi hload
      · exact absurd hi (hcall nnn)
      · exact absurd hi hret
      · exact absurd hi (hmem x).2.2.2
  case call =>
    intro s f hnone h
    obtain ⟨g, hg, -⟩ | ⟨-, hpc, he⟩ | ⟨-, -, ⟨e, hd⟩, he⟩ | ⟨i, -, -, hd, he⟩ := executeOne_cases s
    · rw [hnone] at hg; cases hg
    · rw [h] at he; cases he; exact .inl ⟨_, rfl, hpc⟩
    · rw [h] at he; cases he; exact .inr (.inl ⟨rfl, by simp [hd]⟩)
    · exact .inr (.inr ⟨i, hd, endOfCall_eq_fault.1 (he.symm.trans h)⟩)
  case memory =>
    refine ⟨stateWithIndexAtEnd, stateWithIndexAtEnd_inv, fun x y => ⟨4096, ?_, ?_, ?_, ?_⟩⟩
    · exact (exec_drw x y 2 _).trans (checkRange_of_gt (by decide) (by decide))
    · exact (exec_ldB x _).trans (storeAtI_of_gt (by simp [bcdDigits]) (show 4096 < 4095 + _ by simp [bcdDigits]))
    · exact (exec_ldMemVx 1 _).trans (storeAtI_of_gt (by simp) (show 4096 < 4095 + _ by simp))
    · exact (exec_ldVxMem 1 _).trans (checkRange_of_gt (by decide) (by decide))
  case overflow => exact ⟨stateWithFullStack, stateWithFullStack_inv, fun nnn => rfl⟩
  case underflow => exact ⟨State.reset, reset_inv, rfl⟩
  case key => exact fun e => ⟨stateWithKeyError e, stateWithKeyError_inv e, fun x => rfl⟩

/-! ### No refusal (R8) -/

theorem exec_ne_refused (i : Instr) (s : State) (r : Refusal) : exec i s ≠ .refused r := by
  obtain ⟨t, h⟩ | ⟨f, h, -⟩ := exec_outcome i s <;> simp [h]

theorem executeOne_ne_refused (s : State) (r : Refusal) : executeOne s ≠ .refused r := by
  obtain ⟨f, -, h⟩ | ⟨-, -, h⟩ | ⟨-, -, -, h⟩ | ⟨i, -, -, -, h⟩ := executeOne_cases s
  · simp [h]
  · simp [h]
  · simp [h]
  · obtain ⟨x, -, -, -, hend⟩ | ⟨-, ⟨t, -, hend⟩ | ⟨f, -, hend⟩ | ⟨r', hr, -⟩⟩ :=
      endOfCall_exec_cases i s
    · simp [h, hend]
    · simp [h, hend]
    · simp [h, hend]
    · exact absurd hr (exec_ne_refused i s r')

theorem step_ne_refused (s : State) (r : Refusal) : step s ≠ .refused r := by
  have hcall := executeOne_ne_refused s.beginTurn
  unfold step
  cases h : executeOne s.beginTurn with
  | next e => cases e <;> simp [State.shown, finishTurn]
  | fault f => simp [State.shown, finishTurn]
  | refused r' => exact absurd h (hcall r')

/-- Settles O14: no instruction refuses, and a call or a step refuses only where its instruction does. -/
theorem nothingIsRefused : Obligations.NothingIsRefused :=
  ⟨exec_ne_refused, fun s r => ⟨executeOne_ne_refused s r, step_ne_refused s r⟩⟩

end Sys2Proof.Machine
end

section
/-! Memory and the invariant: the canonical form is one, reset, the loader, a word placed at `PC`, and that
every step keeps the invariant. -/

namespace Sys2Proof.Machine

/-! ### The canonical form (R31) -/

/-- The first address that canonical memory lists reads other than it does unlisted. -/
theorem Memory.read_head_ne_background {lo a : Nat} {u : Byte} {m : Memory}
    (h : Memory.wfFrom lo ((a, u) :: m) = true) :
    Memory.read ((a, u) :: m) a ≠ Memory.background a := by
  simpa [Memory.read] using (Memory.wfFrom_cons.1 h).2.2.1

/-- Two canonical memories list the same first address: the lower of two would read listed in one and
unlisted in the other. -/
theorem Memory.head_le_of_read_eq {lo a b : Nat} {u v : Byte} {m m' : Memory}
    (hm : Memory.wfFrom lo ((a, u) :: m) = true) (hm' : Memory.wfFrom lo ((b, v) :: m') = true)
    (h : ∀ c, Memory.read ((a, u) :: m) c = Memory.read ((b, v) :: m') c) : b ≤ a := by
  by_contra hlt
  obtain ⟨-, hrest⟩ := Memory.wfFrom_cons.1 hm'
  have hb : Memory.wfFrom b ((b, v) :: m') = true := Memory.wfFrom_cons.2 ⟨le_rfl, hrest⟩
  exact Memory.read_head_ne_background hm ((h a).trans (Memory.read_below (by omega) hb))

theorem Memory.eq_of_read_eq {lo : Nat} {m m' : Memory} (hm : Memory.wfFrom lo m = true)
    (hm' : Memory.wfFrom lo m' = true) (h : ∀ a, m.read a = m'.read a) : m = m' := by
  induction m generalizing lo m' with
  | nil =>
    match m', hm' with
    | [], _ => rfl
    | (b, v) :: m', hm' => exact absurd (h b).symm (Memory.read_head_ne_background hm')
  | cons c m ih =>
    obtain ⟨a, u⟩ := c
    match m', hm' with
    | [], _ => exact absurd (h a) (Memory.read_head_ne_background hm)
    | (b, v) :: m', hm' =>
      have hab : a = b := le_antisymm
        (Memory.head_le_of_read_eq hm' hm fun c => (h c).symm) (Memory.head_le_of_read_eq hm hm' h)
      subst hab
      have huv : u = v := by simpa [Memory.read] using h a
      obtain ⟨-, -, -, hrest⟩ := Memory.wfFrom_cons.1 hm
      obtain ⟨-, -, -, hrest'⟩ := Memory.wfFrom_cons.1 hm'
      have htail (c : Nat) : Memory.read m c = Memory.read m' c := by
        by_cases hc : c = a
        · rw [hc, Memory.read_below (Nat.lt_succ_self a) hrest,
            Memory.read_below (Nat.lt_succ_self a) hrest']
        · simpa [Memory.read, hc] using h c
      rw [huv, ih hrest hrest' htail]

/-- Settles O19, by induction on the list: the first entries agree, and so do the reads of the rest. -/
theorem canonicalMemoryIsDetermined : Obligations.CanonicalMemoryIsDetermined :=
  fun _ _ hm hm' h => Memory.eq_of_read_eq hm hm' h

/-! ### Writing bytes -/

/-- The address of byte `k` holds it after the bytes are written. -/
theorem Memory.read_writeBytes_add {m : Memory} {a k : Nat} {bs : List Byte} {b : Byte}
    (h : a + bs.length ≤ Config.memSize) (hm : m.wf = true) (hb : bs[k]? = some b) :
    (m.writeBytes a bs).read (a + k) = b := by
  obtain ⟨hk, -⟩ := List.getElem?_eq_some_iff.1 hb
  rw [Memory.read_writeBytes _ h hm, if_pos (by omega), Nat.add_sub_cancel_left, hb]
  rfl

/-- Every other address holds what it held. -/
theorem Memory.read_writeBytes_of_notMem {m : Memory} {a c : Nat} {bs : List Byte}
    (h : a + bs.length ≤ Config.memSize) (hm : m.wf = true) (hc : c ∉ List.range' a bs.length) :
    (m.writeBytes a bs).read c = m.read c := by
  rw [List.mem_range'_1] at hc
  rw [Memory.read_writeBytes _ h hm, if_neg hc]

theorem frame_writeBytes {s : State} {a : Nat} {bs : List Byte}
    (h : a + bs.length ≤ Config.memSize) (hm : s.mem.wf = true) :
    Frame [] [] (List.range' a bs.length) s { s with mem := s.mem.writeBytes a bs } :=
  frame_of (fun _ _ => rfl) (fun _ => rfl) (fun _ => rfl) (fun _ => rfl) (fun _ => rfl)
    (fun _ => rfl) (fun _ => rfl) (fun _ hc => Memory.read_writeBytes_of_notMem h hm hc) rfl rfl rfl

/-! ### Reset (R35) -/

/-- Settles O16: the fields are literals, and memory listing nothing reads as its reset contents, which
are `FONT` and then 0. -/
theorem resetValues : Obligations.ResetValues := by
  refine ⟨fun r => ?_, rfl, rfl, rfl, rfl, rfl, rfl, row_clear, rfl, ?font, ?zero⟩
  · simp [State.readV, State.reset]
  case font =>
    intro a ha
    have hlt : a < Config.font.length := ha
    have hread : State.reset.mem.read a = Memory.background a := rfl
    rw [hread, Memory.background, List.getElem?_eq_getElem hlt, Option.getD_some]
  case zero =>
    intro a ha
    have hread : State.reset.mem.read a = Memory.background a := rfl
    rw [hread, Memory.background, List.getElem?_eq_none (show Config.font.length ≤ a from ha)]
    rfl

/-! ### The loader (R257) -/

theorem load_of_fits {s : State} {image : List Byte}
    (h : Config.progBase.toNat + image.length ≤ Config.memSize) :
    s.load image = { s with mem := s.mem.writeBytes Config.progBase.toNat image } :=
  if_pos h

/-- Settles O20: the loader is one write of bytes. -/
theorem loaderWritesTheImage : Obligations.LoaderWritesTheImage := by
  intro s image hm h
  rw [load_of_fits h]
  exact ⟨fun k b hb => Memory.read_writeBytes_add h hm hb, frame_writeBytes h hm, rfl,
    Memory.wf_writeBytes h hm⟩

/-! ### A word placed at `PC` -/

theorem placeAtPC_of_lt {s : State} (h : s.pc.toNat + 1 < Config.memSize) (w : Word) :
    s.placeAtPC w = { s with mem := s.mem.writeBytes s.pc.toNat [hiByte w, loByte w] } :=
  if_pos h

/-- Where two bytes stand at `PC`, the word there is theirs. -/
theorem wordAtPC_of_writeBytes {s t : State} {hi lo : Byte} (hm : s.mem.wf = true)
    (h : t.pc.toNat + 1 < Config.memSize) (hmem : t.mem = s.mem.writeBytes t.pc.toNat [hi, lo]) :
    t.wordAtPC = wordOfBytes hi lo := by
  have hhi := Memory.read_writeBytes_add (k := 0) (bs := [hi, lo]) h hm rfl
  have hlo := Memory.read_writeBytes_add (k := 1) (bs := [hi, lo]) h hm rfl
  rw [Nat.add_zero] at hhi
  rw [State.wordAtPC, hmem, hhi, hlo]

theorem wordAtPC_placeAtPC {s : State} (hm : s.mem.wf = true) (h : s.pc.toNat + 1 < Config.memSize)
    (w : Word) : (s.placeAtPC w).wordAtPC = w := by
  have hmem : (s.placeAtPC w).mem = s.mem.writeBytes (s.placeAtPC w).pc.toNat [hiByte w, loByte w] := by
    rw [placeAtPC_of_lt h]
  rw [wordAtPC_of_writeBytes hm (by rwa [placeAtPC_pc]) hmem, wordOfBytes_split]

theorem frame_placeAtPC {s : State} (hm : s.mem.wf = true) (h : s.pc.toNat + 1 < Config.memSize)
    (w : Word) : Frame [] [] [s.pc.toNat, s.pc.toNat + 1] s (s.placeAtPC w) := by
  rw [placeAtPC_of_lt h]
  exact frame_writeBytes (bs := [hiByte w, loByte w]) h hm

theorem withFetchWord_encode (s : State) (i : Instr) :
    s.withFetchWord 16 (encode i).toNat = s.placeAtPC (encode i) := by
  rw [State.withFetchWord, tableWord_toNat]

/-- Settles O15: the word at `PC` is the one placed, which decodes to the instruction. -/
theorem withFetchWordRunsTheWord : Obligations.WithFetchWordRunsTheWord := by
  intro s i hf hm hpc hi
  rw [withFetchWord_encode]
  refine ⟨step_of_decode ?fault ?pc ?word, frame_placeAtPC hm hpc _, placeAtPC_pc s _⟩
  case fault => rw [placeAtPC_fault, hf]
  case pc => rw [placeAtPC_pc]; exact hpc
  case word => rw [wordAtPC_placeAtPC hm hpc]; exact decodeOfEncode i hi

/-! ### A stored instruction (R62) -/

theorem regsUpTo_one (s : State) : regsUpTo s 1 = [s.readV 0, s.readV 1] := by
  have h0 := getElem?_regsUpTo s 1 0 (by decide)
  have h1 := getElem?_regsUpTo s 1 1 le_rfl
  match hl : regsUpTo s 1, length_regsUpTo s 1 with
  | [a, b], _ =>
    rw [hl] at h0 h1
    cases h0
    cases h1
    rfl

/-- Settles O21: the two bytes stored at `P + 2` are the word there. -/
theorem storedInstructionIsFetched : Obligations.StoredInstructionIsFetched := by
  intro s k hm hidx hpc
  have hsize : Config.memSize = 4096 := rfl
  have hnext : (s.pc + 2).toNat = s.idx.toNat := by
    have htwo : (2 : Word).toNat = 2 := rfl
    rw [BitVec.toNat_add, htwo]
    omega
  have hstore : exec (.ldMemVx 1) s = .next (State.advance
      { s with mem := s.mem.writeBytes s.idx.toNat [s.readV 0, s.readV 1] }) := by
    rw [exec_ldMemVx, regsUpTo_one, storeAtI_of_le (show s.idx.toNat + 2 ≤ _ by omega)]
    rfl
  have hlt : (s.pc + 2).toNat + 1 < Config.memSize := by omega
  refine ⟨_, hstore, ?_⟩
  rw [fetch_of_lt (by exact hlt), wordAtPC_of_writeBytes (s := s) hm (by exact hlt)]
  rw [advance_mem, advance_pc, hnext]

end Sys2Proof.Machine
end

section
/-! Rules about the whole machine: what an instruction that completes can have changed, its next `PC`, and
that every step keeps the invariant. -/

namespace Sys2Proof.Machine

/-! ### Which instruction writes what -/

/-- From `s` to `t` each part of the state beside the registers and `PC` changed only if `i` is one of the
instructions that write it (R23, R27, R29, R30, R33, R34, R51). -/
structure WritesOnlyAsListed (i : Instr) (s t : State) : Prop where
  mem : t.mem = s.mem ∨ ∃ x, i = .ldB x ∨ i = .ldMemVx x
  disp : t.disp = s.disp ∨ i = .cls ∨ ∃ x y n, i = .drw x y n
  stack : t.stack = s.stack ∨ i = .ret ∨ ∃ nnn, i = .call nnn
  idx : t.idx = s.idx ∨ (∃ nnn, i = .ldI nnn) ∨ ∃ x, i = .addI x ∨ i = .ldF x
  dt : t.dt = s.dt ∨ ∃ x, i = .ldDTVx x
  st : t.st = s.st ∨ ∃ x, i = .ldSTVx x
  waiting : t.waiting = s.waiting ∨ ∃ x, i = .ldVxK x
  fault : t.fault = s.fault
  host : t.host = s.host
  turns : t.turns = s.turns

theorem exec_writes {i : Instr} {s t : State} (h : exec i s = .next t) :
    WritesOnlyAsListed i s t := by
  rcases exec_cases h with ⟨x, b, rfl, -⟩ | ⟨x, y, b, f, rfl, -⟩ | ⟨a, rfl, -⟩ |
    ⟨a, rfl, nnn, x, rfl | rfl | rfl⟩ | ⟨m, a, bs, x, rfl, -, -, rfl | rfl⟩ | ⟨x, rfl, -⟩ |
    ⟨x, rfl, rfl⟩ | ⟨x, rfl, rfl⟩ | ⟨x, -, rfl, rfl⟩ | ⟨x, k, -, rfl, rfl⟩ | ⟨rfl, rfl⟩ |
    ⟨x, y, n, rows, rfl, rfl⟩ | ⟨nnn, -, rfl, rfl⟩ | ⟨a, rest, -, rfl, rfl⟩
  all_goals constructor <;> simp

/-- Settles O22: memory is one of the parts written only as listed. -/
theorem onlyStoresChangeMemory : Obligations.OnlyStoresChangeMemory :=
  fun _ _ _ h => (exec_writes h).mem.resolve_left

/-- Settles O23: so is the display. -/
theorem onlyClearAndDrawChangeDisplay : Obligations.OnlyClearAndDrawChangeDisplay :=
  fun _ _ _ h => (exec_writes h).disp.resolve_left

/-- Settles O24: so is the call stack. -/
theorem onlyCallAndReturnTouchStack : Obligations.OnlyCallAndReturnTouchStack :=
  fun _ _ _ h => (exec_writes h).stack.resolve_left

/-- Settles O26: so are the timers and the note of a wait; `fault` and the host's turns no instruction
writes. -/
theorem timersWrittenOnlyBySetTimer : Obligations.TimersWrittenOnlyBySetTimer := by
  intro i s t h
  have hw := exec_writes h
  exact ⟨hw.dt.resolve_left, hw.st.resolve_left, hw.waiting.resolve_left, hw.fault, hw.host, hw.turns⟩

theorem writeI_idx_le (s : State) (a : Word) : (s.writeI a).advance.idx.toNat ≤ 0x0FFF := by
  rw [advance_idx, writeI_toNat]
  omega

/-- The three instructions that write `I` mask it, whatever it was. -/
theorem idx_le_of_exec {i : Instr} {s t : State} (h : exec i s = .next t)
    (hi : (∃ nnn, i = .ldI nnn) ∨ ∃ x, i = .addI x ∨ i = .ldF x) : t.idx.toNat ≤ 0x0FFF := by
  obtain ⟨nnn, rfl⟩ | ⟨x, rfl | rfl⟩ := hi <;> cases h <;> exact writeI_idx_le s _

/-- Settles O25: `I` is written only as listed, and masked where it is. -/
theorem indexWrittenMaskedByThree : Obligations.IndexWrittenMaskedByThree :=
  fun _ _ _ h => ⟨idx_le_of_exec h, (exec_writes h).idx.resolve_left⟩

/-- A register's write, to the state or to one with its registers, changes `VF` only if that is the
register. -/
theorem eq_VF_of_writeV_ne {s u : State} {x : Reg} {b : Byte} (hv : u.v = s.v)
    (h : (u.writeV x b).advance.readV VF ≠ s.readV VF) : x = VF := by
  by_contra hx
  rw [advance_readV, readV_writeV_ne u b (Ne.symm hx), readV_congr hv] at h
  exact h rfl

theorem eq_VF_of_loadRegsUpTo_ne {s : State} {x : Reg}
    (h : (loadRegsUpTo s x).advance.readV VF ≠ s.readV VF) : x = VF := by
  by_contra hx
  have hlt : ¬VF ≤ x := fun hle => hx (le_antisymm (Fin.le_last x) hle)
  rw [advance_readV, readV_loadRegsUpTo, if_neg hlt] at h
  exact h rfl

/-- Settles O27: in each case of what an instruction can do, `VF` is kept, is the destination, or is written
as the flag. -/
theorem flagRegisterWrittenOnlyAsListed : Obligations.FlagRegisterWrittenOnlyAsListed := by
  intro i s t h hVF
  rcases exec_cases h with ⟨x, b, rfl, hi⟩ | ⟨x, y, b, f, rfl, hi⟩ | ⟨a, rfl, -⟩ | ⟨a, rfl, -⟩ |
    ⟨m, a, bs, x, rfl, -⟩ | ⟨x, rfl, rfl⟩ | ⟨x, rfl, -⟩ | ⟨x, rfl, -⟩ | ⟨x, -, rfl, -⟩ |
    ⟨x, k, -, rfl, rfl⟩ | ⟨rfl, -⟩ | ⟨x, y, n, rows, rfl, rfl⟩ | ⟨nnn, -, rfl, -⟩ |
    ⟨a, rest, -, rfl, -⟩
  · obtain rfl := eq_VF_of_writeV_ne rfl hVF
    obtain hi | hi | rfl := hi
    · exact .inr (.inr (.inl hi))
    · exact .inr (.inr (.inr (.inl hi)))
    · exact .inr (.inr (.inr (.inr (.inl rfl))))
  · exact .inl ⟨x, y, hi⟩
  · exact absurd rfl hVF
  · exact absurd rfl hVF
  · exact absurd rfl hVF
  · obtain rfl := eq_VF_of_loadRegsUpTo_ne hVF
    exact .inr (.inr (.inr (.inr (.inr (.inr rfl)))))
  · exact absurd rfl hVF
  · exact absurd rfl hVF
  · exact absurd rfl hVF
  · obtain rfl := eq_VF_of_writeV_ne rfl hVF
    exact .inr (.inr (.inr (.inr (.inr (.inl rfl)))))
  · exact absurd rfl hVF
  · exact .inr (.inl ⟨x, y, n, rfl⟩)
  · exact absurd rfl hVF
  · exact absurd rfl hVF

/-! ### The next `PC` (R104) -/

/-- A checked instruction that completes gives the checked state. -/
theorem checkRange_eq_next {a n : Nat} {u t : State} (h : checkRange a n (.next u) = .next t) :
    t = u := by
  obtain ⟨-, he⟩ | ⟨-, -, he⟩ := checkRange_cases a n (.next u) <;> rw [he] at h <;> cases h
  rfl

theorem checkRange_advance_pc {a n : Nat} {u t : State}
    (h : checkRange a n (.next u.advance) = .next t) : t.pc = u.pc + 2 := by
  rw [checkRange_eq_next h, advance_pc]

theorem execLdVxK_pc {x : Reg} {s t : State} (h : execLdVxK x s = .next t) :
    t.pc = if s.keyWait = .pending then s.pc else s.pc + 2 := by
  obtain ⟨hk, he⟩ | ⟨k, hk, he⟩ | ⟨e, hk, he⟩ := execLdVxK_cases x s <;> rw [he] at h <;> cases h
  · simp [hk]
  · simp [hk]

theorem exec_ret_pc {s t : State} (h : exec .ret s = .next t) : s.stack.head? = some t.pc := by
  rw [exec_ret] at h
  obtain ⟨-, he⟩ | ⟨a, rest, hs, he⟩ := pop_cases s fun a t => .next (t.writePC a) <;> rw [he] at h <;>
    cases h
  simp [hs]

theorem exec_call_pc {s t : State} {nnn : BitVec 12} (h : exec (.call nnn) s = .next t) :
    t.pc.toNat = nnn.toNat := by
  rw [exec_call] at h
  obtain ⟨-, he⟩ | ⟨-, he⟩ := push_cases s (s.pc + 2) fun t => .next (t.writePC (addrImm nnn)) <;>
    rw [he] at h <;> cases h
  exact addrImm_toNat nnn

theorem indirectTarget_lt (s : State) (nnn : BitVec 12) :
    nnn.toNat + (s.readV 0).toNat < 65536 := by
  have hnnn := nnn.isLt
  have hV0 := (s.readV 0).isLt
  omega

/-- The largest sum, 0xFFF + 0xFF, fits 16 bits. -/
theorem indirectTarget_toNat (s : State) (nnn : BitVec 12) :
    (indirectTarget s nnn).toNat = nnn.toNat + (s.readV 0).toNat := by
  have hV0 : ((s.readV 0).setWidth 16).toNat = (s.readV 0).toNat :=
    BitVec.toNat_setWidth_of_le (by decide)
  rw [indirectTarget, BitVec.toNat_add, addrImm_toNat, hV0,
    Nat.mod_eq_of_lt (indirectTarget_lt s nnn)]

theorem indirectTarget_toNat_mod (s : State) (nnn : BitVec 12) :
    (indirectTarget s nnn).toNat = (nnn.toNat + (s.readV 0).toNat) % 65536 := by
  rw [indirectTarget_toNat, Nat.mod_eq_of_lt (indirectTarget_lt s nnn)]

/-- Settles O28: each instruction writes `PC` once; the four that are checked first and the two on the stack
by their own lemmas; a fault writes no `PC`. -/
theorem nextProgramCounter : Obligations.NextProgramCounter := by
  refine ⟨?next, ?faulting⟩
  case faulting => exact fun s f h => by rw [stateAfter_of_fault h, recordFault_pc]
  case next =>
    intro i s t h
    cases i
    case ret => exact exec_ret_pc h
    case call nnn => exact exec_call_pc h
    case ldVxK x => exact execLdVxK_pc h
    case drw => exact (checkRange_advance_pc h).trans (by rw [drawSprite_pc])
    case ldVxMem => exact (checkRange_advance_pc h).trans (by rw [loadRegsUpTo_pc])
    case ldB | ldMemVx => exact (checkRange_advance_pc h).trans rfl
    all_goals cases h
    case jp nnn => exact addrImm_toNat nnn
    case jpV0 nnn => exact indirectTarget_toNat_mod s nnn
    case seImm | seReg => exact skipIf_beq_pc _ _ s
    case sneImm | sneReg => exact (skipIf_bne_pc _ _ s).trans (ite_not _ _ _).symm
    case skp => exact skipIf_pc _ s
    case sknp x => cases hk : s.keyHeld (s.readV x) <;> simp [hk]
    all_goals rfl

/-! ### The invariant -/

theorem State.Inv.beginTurn {s : State} (h : s.Inv) : s.beginTurn.Inv :=
  ⟨h.mem_wf, h.idx_masked, h.sp_bounded, h.waits_at_key⟩

theorem State.Inv.endTurn {s : State} (h : s.Inv) : s.endTurn.Inv :=
  ⟨h.mem_wf, h.idx_masked, h.sp_bounded, h.waits_at_key⟩

theorem storeAtI_mem_wf {s t : State} {bs : List Byte} (hm : s.mem.wf = true)
    (h : storeAtI s bs = .next t) : t.mem.wf = true := by
  obtain ⟨hempty | hle, he⟩ | ⟨-, -, he⟩ := storeAtI_cases s bs <;> rw [he] at h <;> cases h
  · rw [List.length_eq_zero_iff.1 hempty]
    exact hm
  · exact Memory.wf_writeBytes hle hm

theorem exec_mem_wf {i : Instr} {s t : State} (hm : s.mem.wf = true) (h : exec i s = .next t) :
    t.mem.wf = true := by
  obtain hmem | ⟨x, rfl | rfl⟩ := (exec_writes h).mem
  · rw [hmem]
    exact hm
  · exact storeAtI_mem_wf hm h
  · exact storeAtI_mem_wf hm h

theorem exec_idx_masked {i : Instr} {s t : State} (hs : s.idx.toNat ≤ 0x0FFF)
    (h : exec i s = .next t) : t.idx.toNat ≤ 0x0FFF := by
  obtain hidx | hi := (exec_writes h).idx
  · rw [hidx]
    exact hs
  · exact idx_le_of_exec h hi

theorem exec_sp_bounded {i : Instr} {s t : State} (hs : s.sp ≤ Config.stackDepth)
    (h : exec i s = .next t) : t.sp ≤ Config.stackDepth := by
  obtain hstack | rfl | ⟨nnn, rfl⟩ := (exec_writes h).stack
  · rw [State.sp, hstack]
    exact hs
  · rw [exec_ret] at h
    obtain ⟨-, he⟩ | ⟨a, rest, hstack, he⟩ := pop_cases s fun a t => .next (t.writePC a) <;>
      rw [he] at h <;> cases h
    rw [State.sp, hstack, List.length_cons] at hs
    exact Nat.le_of_succ_le hs
  · rw [exec_call] at h
    obtain ⟨-, he⟩ | ⟨hroom, he⟩ := push_cases s (s.pc + 2) fun t => .next (t.writePC (addrImm nnn)) <;>
      rw [he] at h <;> cases h
    exact hroom

/-- If a wait is blocked after the instruction at `PC`, that instruction is the wait-for-key, which has left
`PC` and memory: no other instruction runs while a wait is blocked, and none begins one. -/
theorem exec_waits_at_key {i : Instr} {s t : State} (hs : s.Inv)
    (hpc : s.pc.toNat + 1 < Config.memSize) (hd : decode s.wordAtPC = .ok i)
    (h : exec i s = .next t) (hw : t.waiting = true) :
    t.pc.toNat + 1 < Config.memSize ∧ ∃ x, decode t.wordAtPC = .ok (.ldVxK x) := by
  have hi : ∃ x, i = .ldVxK x := by
    obtain hkept | hi := (exec_writes h).waiting
    · obtain ⟨-, x, hx⟩ := hs.waits_at_key (hkept ▸ hw)
      rw [hd] at hx
      cases hx
      exact ⟨x, rfl⟩
    · exact hi
  obtain ⟨x, rfl⟩ := hi
  rw [exec_ldVxK] at h
  obtain ⟨-, he⟩ | ⟨k, -, he⟩ | ⟨e, -, he⟩ := execLdVxK_cases x s <;> rw [he] at h <;> cases h
  · exact ⟨hpc, x, hd⟩
  · cases hw

theorem exec_keeps_inv {i : Instr} {s t : State} (hs : s.Inv) (hpc : s.pc.toNat + 1 < Config.memSize)
    (hd : decode s.wordAtPC = .ok i) (h : exec i s = .next t) : t.Inv :=
  ⟨exec_mem_wf hs.mem_wf h, exec_idx_masked hs.idx_masked h, exec_sp_bounded hs.sp_bounded h,
    exec_waits_at_key hs hpc hd h⟩

/-- Settles O18: a step is one instruction between the halves of the host's turn, and each of the three keeps
the invariant. -/
theorem stepKeepsInvariant : Obligations.StepKeepsInvariant := by
  intro s t hs h
  obtain ⟨i, u, -, hpc, hd, hu, rfl⟩ := step_eq_next h
  exact (exec_keeps_inv hs.beginTurn hpc hd hu).endTurn

end Sys2Proof.Machine
end

section
/-! ALU instructions that write a flag, and random (spec/42_alu.md R147 to R152): the next state of each is
one register's write and then the flag's, or one register's write, then `PC` to the next instruction. -/

namespace Sys2Proof.Machine

/-! ### The next state -/

theorem exec_addReg (x y : Reg) (s : State) :
    exec (.addReg x y) s = .next
      (s.writeWithFlag x (s.readV x + s.readV y) (carryFlag (s.readV x) (s.readV y))).advance := rfl

theorem exec_sub (x y : Reg) (s : State) :
    exec (.sub x y) s = .next
      (s.writeWithFlag x (s.readV x - s.readV y) (notBorrowFlag (s.readV x) (s.readV y))).advance := rfl

theorem exec_subn (x y : Reg) (s : State) :
    exec (.subn x y) s = .next
      (s.writeWithFlag x (s.readV y - s.readV x) (notBorrowFlag (s.readV y) (s.readV x))).advance := rfl

theorem exec_shr (x y : Reg) (s : State) :
    exec (.shr x y) s
      = .next (s.writeWithFlag x (s.readV x >>> 1) (lowBitFlag (s.readV x))).advance := rfl

theorem exec_shl (x y : Reg) (s : State) :
    exec (.shl x y) s
      = .next (s.writeWithFlag x (s.readV x <<< 1) (highBitFlag (s.readV x))).advance := rfl

theorem exec_rnd (x : Reg) (kk : Byte) (s : State) :
    exec (.rnd x kk) s = .next (s.writeV x (s.randByte &&& kk)).advance := rfl

/-! ### The flags (R21) -/

theorem carryFlag_eq (a b : Byte) : carryFlag a b = if a.toNat + b.toNat > 255 then 1 else 0 := by
  simp only [carryFlag, flagOf, decide_eq_true_eq]

theorem notBorrowFlag_eq (a b : Byte) : notBorrowFlag a b = if b.toNat > a.toNat then 0 else 1 := by
  by_cases h : b.toNat > a.toNat <;> simp [notBorrowFlag, flagOf, h]

theorem lowBitFlag_toNat (a : Byte) : (lowBitFlag a).toNat = a.toNat % 2 := by
  rw [lowBitFlag, BitVec.toNat_and]
  exact Nat.and_one_is_mod _

theorem highBitFlag_toNat (a : Byte) : (highBitFlag a).toNat = a.toNat / 128 := by
  have hlt := a.isLt
  have hshift : (a >>> 7).toNat = a.toNat / 128 := by
    rw [BitVec.toNat_ushiftRight, Nat.shiftRight_eq_div_pow]
  have hmod : ((a >>> 7) &&& 1#8).toNat = a.toNat / 128 % 2 := by
    rw [BitVec.toNat_and, hshift]
    exact Nat.and_one_is_mod _
  rw [highBitFlag, hmod]
  omega

theorem byte_sub_toNat (a b : Byte) : (a - b).toNat = (a.toNat + 256 - b.toNat) % 256 := by
  have hb := b.isLt
  rw [BitVec.toNat_sub]
  omega

/-! ### One register's write and then the flag's -/

theorem frame_writeWithFlag (s : State) (x : Reg) (r f : Byte) :
    Frame [x, VF] [] [] s (s.writeWithFlag x r f).advance := by
  apply frame_of <;> simp
  intro q hx hVF
  rw [readV_writeWithFlag, if_neg hVF, if_neg hx]

/-- An instruction whose next state is one register's write, then the flag's, and the next `PC` completes
with the flag in `VF` and, in another destination, the value written. -/
theorem completes_of_exec_writeWithFlag {i : Instr} {s : State} {x : Reg} {r f : Byte}
    (h : exec i s = .next (s.writeWithFlag x r f).advance) :
    ∃ t, exec i s = .next t ∧ (x ≠ VF → t.readV x = r) ∧ t.readV VF = f ∧ t.pc = s.pc + 2 ∧
      Frame [x, VF] [] [] s t := by
  refine ⟨_, h, fun hx => ?_, ?_, advance_pc _, frame_writeWithFlag s x r f⟩
  · rw [advance_readV, readV_writeWithFlag, if_neg hx, if_pos rfl]
  · rw [advance_readV, readV_writeWithFlag, if_pos rfl]

/-! ### The obligations -/

/-- Settles O33: a byte's sum is modulo 256, and the flag is the carry. -/
theorem addSetsCarry : Obligations.AddSetsCarry := by
  intro x y s
  obtain ⟨t, hnext, hx, hVF, hrest⟩ := completes_of_exec_writeWithFlag (exec_addReg x y s)
  exact ⟨t, hnext, fun h => hx h ▸ BitVec.toNat_add _ _, hVF.trans (carryFlag_eq _ _), hrest⟩

/-- Settles O34: a byte's difference is modulo 256, and the flag is not-borrow. -/
theorem subtractSetsNotBorrow : Obligations.SubtractSetsNotBorrow := by
  intro x y s
  obtain ⟨t, hnext, hx, hVF, hrest⟩ := completes_of_exec_writeWithFlag (exec_sub x y s)
  exact ⟨t, hnext, fun h => hx h ▸ byte_sub_toNat _ _, hVF.trans (notBorrowFlag_eq _ _), hrest⟩

/-- Settles O35: as O34, with the operands the other way round. -/
theorem reverseSubtractSetsNotBorrow : Obligations.ReverseSubtractSetsNotBorrow := by
  intro x y s
  obtain ⟨t, hnext, hx, hVF, hrest⟩ := completes_of_exec_writeWithFlag (exec_subn x y s)
  exact ⟨t, hnext, fun h => hx h ▸ byte_sub_toNat _ _, hVF.trans (notBorrowFlag_eq _ _), hrest⟩

/-- Settles O36: a shift moves one bit out to the flag; its meaning and its word's decoding leave `y` out. -/
theorem shiftsMoveOneBitOut : Obligations.ShiftsMoveOneBitOut := by
  intro x y s
  refine ⟨?shr, ?shl, fun y' => ⟨rfl, rfl⟩, fun w ho => decode_shift_word ho⟩
  case shr =>
    obtain ⟨t, hnext, hx, hVF, hrest⟩ := completes_of_exec_writeWithFlag (exec_shr x y s)
    refine ⟨t, hnext, fun h => ?_, hVF ▸ lowBitFlag_toNat _, hrest⟩
    rw [hx h, BitVec.toNat_ushiftRight, Nat.shiftRight_eq_div_pow]
  case shl =>
    obtain ⟨t, hnext, hx, hVF, hrest⟩ := completes_of_exec_writeWithFlag (exec_shl x y s)
    refine ⟨t, hnext, fun h => ?_, hVF ▸ highBitFlag_toNat _, hrest⟩
    rw [hx h, BitVec.toNat_shiftLeft, Nat.shiftLeft_eq]

/-- Settles O37: one register's write, of the turn's byte under the mask, and a turn's byte is any byte. -/
theorem randomByteIsMasked : Obligations.RandomByteIsMasked := by
  intro x kk s
  refine ⟨?masked, fun r => ?anyByte⟩
  case masked =>
    obtain ⟨t, hnext, hx, hpc, hframe⟩ := completes_of_exec_writeV (exec_rnd x kk s)
    exact ⟨t, hnext, fun j => hx ▸ BitVec.getLsbD_and, hpc, hframe⟩
  case anyByte =>
    obtain ⟨t, hnext, hx, -⟩ :=
      completes_of_exec_writeV (exec_rnd x kk { s with host := [⟨0, 0, .pending, r⟩] })
    exact ⟨_, t, hnext, hx⟩

end Sys2Proof.Machine
end

section
/-! Calls, returns and the jump indirect (spec/41_control_flow.md R120, R122, R127), and the jump to
itself. -/

namespace Sys2Proof.Machine

theorem exec_jpV0 (nnn : BitVec 12) (s : State) :
    exec (.jpV0 nnn) s = .next (s.writePC (indirectTarget s nnn)) := rfl

/-- Settles O39: the jump writes `PC` alone, and the sum fits 16 bits. -/
theorem jumpIndirectAddsV0 : Obligations.JumpIndirectAddsV0 := by
  intro nnn s
  exact ⟨_, exec_jpV0 nnn s, indirectTarget_toNat s nnn, frame_writePC s _⟩

/-! ### The call stack (R27, R28) -/

theorem pop_of_cons {s : State} {a : Word} {rest : List Word} (h : s.stack = a :: rest)
    (k : Word → State → Host.Outcome State Fault Refusal) :
    pop s k = k a { s with stack := rest } := by
  simp [pop, h]

theorem exec_call_of_room {s : State} (h : s.sp < Config.stackDepth) (nnn : BitVec 12) :
    exec (.call nnn) s
      = .next (State.writePC { s with stack := (s.pc + 2) :: s.stack } (addrImm nnn)) :=
  (exec_call nnn s).trans (push_of_room h _ _)

theorem exec_call_of_full {s : State} (h : Config.stackDepth ≤ s.sp) (nnn : BitVec 12) :
    exec (.call nnn) s = .fault (.stackOverflow s.pc) :=
  (exec_call nnn s).trans (push_of_full h _ _)

theorem exec_ret_of_nil {s : State} (h : s.stack = []) :
    exec .ret s = .fault (.stackUnderflow s.pc) := by
  rw [exec_ret, pop, h]
  rfl

theorem exec_ret_of_cons {s : State} {a : Word} {rest : List Word} (h : s.stack = a :: rest) :
    exec .ret s = .next (State.writePC { s with stack := rest } a) :=
  (exec_ret s).trans (pop_of_cons h _)

/-- The entries of a stack with one entry more. -/
theorem stackEntry_of_cons {s : State} {a : Word} {rest : List Word} (h : s.stack = a :: rest)
    (n : Nat) : s.stackEntry n
      = if n = rest.length then some a else State.stackEntry { s with stack := rest } n := by
  have hentry : s.stackEntry n = State.stackEntry { s with stack := a :: rest } n := by
    rw [State.stackEntry, h]
    rfl
  rw [hentry]
  exact stackEntry_cons { s with stack := rest } a n

theorem frame_setStack (s : State) (stack : List Word) (a : Word) :
    Frame [] [.stack] [] s (State.writePC { s with stack := stack } a) := by
  apply frame_of <;> simp [State.readV]

/-- Settles O40: the push adds the return address on top, or raises before the jump. -/
theorem callPushesReturnAddress : Obligations.CallPushesReturnAddress := by
  intro nnn s
  refine ⟨fun hroom => ⟨_, exec_call_of_room hroom nnn, rfl, ?top, fun n hn => ?below,
    addrImm_toNat nnn, frame_setStack s _ _⟩, fun hfull => exec_call_of_full hfull.ge nnn⟩
  case top => exact (stackEntry_of_cons rfl _).trans (if_pos rfl)
  case below => exact (stackEntry_of_cons rfl n).trans (if_neg hn.ne)

/-- Settles O41: the pop takes the top entry off, or raises. -/
theorem returnPopsProgramCounter : Obligations.ReturnPopsProgramCounter := by
  intro s
  cases hs : s.stack with
  | nil =>
    refine ⟨fun n hn => ?_, fun _ => ?_⟩
    · rw [State.sp, hs] at hn
      cases hn
    · exact exec_ret_of_nil hs
  | cons a rest =>
    refine ⟨fun n hn => ?_, fun hempty => ?_⟩
    · obtain rfl : rest.length = n := by simpa [State.sp, hs] using hn
      exact ⟨_, exec_ret_of_cons hs, rfl, (stackEntry_of_cons hs _).trans (if_pos rfl),
        fun m hm => ((stackEntry_of_cons hs m).trans (if_neg hm.ne)).symm, frame_setStack s _ _⟩
    · rw [State.sp, hs] at hempty
      cases hempty

/-- Settles O42: the call leaves `P + 2` on top of the old stack, and the return takes it off. -/
theorem callThenReturnRestores : Obligations.CallThenReturnRestores := by
  intro nnn s t u h hu
  rw [exec_call] at h
  obtain ⟨-, he⟩ | ⟨-, he⟩ := push_cases s (s.pc + 2) fun t => .next (t.writePC (addrImm nnn)) <;>
    rw [he] at h <;> cases h
  exact ⟨_, exec_ret_of_cons hu, rfl, rfl⟩

/-! ### The jump to itself -/

/-- The states agree but for the timers, the host's turns, `fault` and the note of a wait. -/
structure SameCore (s t : State) : Prop where
  pc : t.pc = s.pc
  v : t.v = s.v
  idx : t.idx = s.idx
  stack : t.stack = s.stack
  disp : t.disp = s.disp
  mem : t.mem = s.mem

theorem SameCore.trans {s t u : State} (h : SameCore s t) (h' : SameCore t u) : SameCore s u :=
  ⟨h'.pc.trans h.pc, h'.v.trans h.v, h'.idx.trans h.idx, h'.stack.trans h.stack,
    h'.disp.trans h.disp, h'.mem.trans h.mem⟩

theorem SameCore.wordAtPC {s t : State} (h : SameCore s t) : t.wordAtPC = s.wordAtPC := by
  rw [State.wordAtPC, State.wordAtPC, h.pc, h.mem]

theorem step_jump_to_itself {s : State} {nnn : BitVec 12} (hf : s.fault = none)
    (hpc : s.pc.toNat + 1 < Config.memSize) (hd : decode s.wordAtPC = .ok (.jp nnn))
    (hself : s.pc.toNat = nnn.toNat) :
    ∃ t, step s = .next t ∧ SameCore s t ∧ t.fault = none := by
  have htarget : addrImm nnn = s.pc := BitVec.eq_of_toNat_eq ((addrImm_toNat nnn).trans hself.symm)
  refine ⟨_, step_of_decode hf hpc hd, ⟨?_, rfl, rfl, rfl, rfl, rfl⟩, hf⟩
  exact htarget

/-- Settles O44, by induction on the length of the run: each step is the same jump. -/
theorem jumpToItselfNeverEnds : Obligations.JumpToItselfNeverEnds := by
  intro n nnn s hf hpc hd hself
  suffices ∃ t, Host.Core.run Sys2Proof.core n s = .next t ∧ SameCore s t ∧ t.fault = none by
    obtain ⟨t, hrun, h, hft⟩ := this
    exact ⟨t, hrun, h.pc, h.v, h.idx, h.stack, h.disp, h.mem, hft⟩
  induction n generalizing s with
  | zero => exact ⟨s, rfl, ⟨rfl, rfl, rfl, rfl, rfl, rfl⟩, hf⟩
  | succ n ih =>
    obtain ⟨u, hstep, hu, hfu⟩ := step_jump_to_itself hf hpc hd hself
    obtain ⟨t, hrun, ht, hft⟩ :=
      ih u hfu (hu.pc ▸ hpc) (hu.wordAtPC ▸ hd) (hu.pc ▸ hself)
    exact ⟨t, (run_next hstep).trans hrun, hu.trans ht, hft⟩

end Sys2Proof.Machine
end

section
/-! Memory transfers (spec/43_index_memory.md R173 to R175) and a sprite out of range: each is checked
first, and then one write of bytes, or one read into the registers. -/

namespace Sys2Proof.Machine

/-- A frame does not look at `PC`. -/
theorem frame_advance {regs : List Reg} {parts : List Part} {addrs : List Nat} {s t : State}
    (h : Frame regs parts addrs s t) : Frame regs parts addrs s t.advance := by
  obtain ⟨hregs, hparts, hrest⟩ := h
  exact ⟨hregs, fun p hp => by cases p <;> exact hparts _ hp, hrest⟩

/-! ### Storing at `I` -/

/-- A store whose bytes fit completes with each byte at its address, and changes no other. -/
theorem completes_of_storeAtI {s : State} {bs : List Byte} (hm : s.mem.wf = true)
    (h : dataAddr s 0 + bs.length ≤ Config.memSize) :
    ∃ t, storeAtI s bs = .next t ∧
      (∀ k b, bs[k]? = some b → t.mem.read (dataAddr s k) = b) ∧ t.pc = s.pc + 2 ∧
      Frame [] [] (List.range' (dataAddr s 0) bs.length) s t := by
  refine ⟨_, storeAtI_of_le h, fun k b hb => ?_, rfl, frame_advance (frame_writeBytes h hm)⟩
  rw [dataAddr_eq s k]
  exact Memory.read_writeBytes_add h hm hb

theorem byte_ofNat_toNat {n : Nat} (h : n < 256) : (BitVec.ofNat 8 n).toNat = n := by
  rw [BitVec.toNat_ofNat, Nat.mod_eq_of_lt h]

/-- Settles O46: the store of three digits, each below 10. -/
theorem bcdStoresThreeDigits : Obligations.BcdStoresThreeDigits := by
  intro x s hm
  refine ⟨fun h => ?stores, fun a ha hout hmin => ?raises⟩
  case stores =>
    have hlen : dataAddr s 0 + (bcdDigits (s.readV x)).length ≤ Config.memSize := h
    obtain ⟨t, hnext, hbytes, hpc, hframe⟩ := completes_of_storeAtI hm hlen
    have hlt := (s.readV x).isLt
    refine ⟨t, hnext, ?_, ?_, ?_, hpc, hframe⟩
    · rw [hbytes 0 _ rfl, byte_ofNat_toNat (by omega)]
    · rw [hbytes 1 _ rfl, byte_ofNat_toNat (by omega)]
    · rw [hbytes 2 _ rfl, byte_ofNat_toNat (by omega)]
  case raises => exact range_fault (n := 3) ha hout hmin

/-- Settles O47: the store of `V0` to `Vx`. -/
theorem storeRegistersCopiesUpToX : Obligations.StoreRegistersCopiesUpToX := by
  intro x s hm
  refine ⟨fun h => ?stores, fun a ha hout hmin => ?raises⟩
  case stores =>
    have hlen : dataAddr s 0 + (regsUpTo s x).length ≤ Config.memSize := by
      rw [length_regsUpTo]
      exact h
    obtain ⟨t, hnext, hbytes, hpc, hframe⟩ := completes_of_storeAtI hm hlen
    rw [length_regsUpTo] at hframe
    exact ⟨t, hnext, fun k hk => hbytes k.val _ (getElem?_regsUpTo s x k hk), hpc, hframe⟩
  case raises =>
    rw [exec_ldMemVx, storeAtI, length_regsUpTo]
    exact range_fault ha hout hmin

/-! ### Loading from `I` -/

theorem exec_ldVxMem_of_le {s : State} {x : Reg} (h : dataAddr s x.val < Config.memSize) :
    exec (.ldVxMem x) s = .next (loadRegsUpTo s x).advance :=
  (exec_ldVxMem x s).trans (checkRange_of_le (.inr h))

theorem frame_loadRegsUpTo (s : State) (x : Reg) :
    Frame ((List.finRange 16).filter (· ≤ x)) [] [] s (loadRegsUpTo s x).advance := by
  apply frame_of <;> simp
  intro r hr
  rw [readV_loadRegsUpTo, if_neg (not_le.2 hr)]

/-- Settles O48: one read into `V0` to `Vx`. -/
theorem loadRegistersCopiesUpToX : Obligations.LoadRegistersCopiesUpToX := by
  intro x s
  refine ⟨fun h => ⟨_, exec_ldVxMem_of_le h, fun k hk => ?_, rfl, frame_loadRegsUpTo s x⟩,
    fun a ha hout hmin => range_fault ha hout hmin⟩
  rw [advance_readV, readV_loadRegsUpTo, if_pos hk]

/-- Settles O49: the load reads the addresses the store wrote, so it is in range too. -/
theorem storeThenLoadRestoresRegisters : Obligations.StoreThenLoadRestoresRegisters := by
  intro x s t u hm h hmem hidx
  have hlen : dataAddr s 0 + (regsUpTo s x).length ≤ Config.memSize := by
    rw [exec_ldMemVx] at h
    obtain ⟨hempty | hle, -⟩ | ⟨-, -, he⟩ := storeAtI_cases s (regsUpTo s x)
    · simp at hempty
    · exact hle
    · rw [he] at h
      cases h
  obtain ⟨t', hnext, hbytes, -⟩ := completes_of_storeAtI hm hlen
  obtain rfl : t = t' := by
    rw [exec_ldMemVx, hnext] at h
    cases h
    rfl
  have hidx' : t.idx = s.idx := by
    obtain hkept | ⟨nnn, hi⟩ | ⟨y, hi | hi⟩ := (exec_writes h).idx
    · exact hkept
    all_goals cases hi
  have haddr (k : Nat) : dataAddr u k = dataAddr s k := by
    rw [dataAddr, dataAddr, hidx, hidx']
  rw [length_regsUpTo] at hlen
  refine ⟨_, exec_ldVxMem_of_le (by rw [haddr]; exact hlen), fun k hk => ?_, fun k hk => ?_⟩
  · rw [advance_readV, readV_loadRegsUpTo, if_pos hk, hmem, haddr]
    exact hbytes k.val _ (getElem?_regsUpTo s x k hk)
  · rw [advance_readV, readV_loadRegsUpTo, if_neg (not_le.2 hk)]

/-- Settles O58: the check over the sprite's rows. -/
theorem drawOutOfRangeFaults : Obligations.DrawOutOfRangeFaults :=
  fun _ _ _ _ _ ha hout hmin => range_fault ha hout hmin

end Sys2Proof.Machine
end

section
/-! Keys (spec/44_io_timers.md R190, R191, R193): the key skips, and the wait for a key, which blocks until
the host has one. -/

namespace Sys2Proof.Machine

theorem exec_skp (x : Reg) (s : State) :
    exec (.skp x) s = .next (s.skipIf (s.keyHeld (s.readV x))) := rfl

theorem exec_sknp (x : Reg) (s : State) :
    exec (.sknp x) s = .next (s.skipIf (!s.keyHeld (s.readV x))) := rfl

/-- A turn in which every key is held, or none. -/
def turnAllKeys (held : Bool) : HostTurn :=
  ⟨0, BitVec.fill 256 held, .pending, 0⟩

theorem keyHeld_turnAllKeys (s : State) (k : Byte) (held : Bool) :
    State.keyHeld { s with host := [turnAllKeys held] } k = held := by
  have hk : k.toNat < 256 := k.isLt
  simp [State.keyHeld, State.hostTurn, turnAllKeys, hk]

/-- Settles O50: a skip on the host's answer, which is free. -/
theorem keySkipsFollowTheHost : Obligations.KeySkipsFollowTheHost := by
  intro x s
  refine ⟨⟨_, exec_skp x s, frame_skipIf _ s, skipIf_pc _ s⟩,
    ⟨_, exec_sknp x s, frame_skipIf _ s, ?_⟩, fun held => ⟨_, keyHeld_turnAllKeys s _ held⟩⟩
  rw [skipIf_pc, State.keyHeld]
  cases s.hostTurn.held.getLsbD (s.readV x).toNat <;> rfl

/-! ### What the key-state source answers (R260) -/

theorem keyWait_of_pending {s : State} (h : s.hostTurn.keyWait = .pending) : s.keyWait = .pending := by
  simp [State.keyWait, h]

theorem keyWait_of_error {s : State} {e : HostError} (h : s.hostTurn.keyWait = .error e) :
    s.keyWait = .error e := by
  simp [State.keyWait, h]

/-- The source gives a key exactly where the host's answer is a code of `KEY_CODES`. -/
theorem keyWait_eq_key_iff {s : State} {k : Byte} :
    s.keyWait = .key k ↔ s.hostTurn.keyWait = .key k ∧ k.toNat ≤ 0x0F := by
  unfold State.keyWait
  cases h : s.hostTurn.keyWait with
  | pending => simp
  | error e => simp
  | key k' =>
    by_cases hk : k'.toNat ≤ 0x0F
    · simp [Config.isKeyCode, hk]
      rintro rfl
      exact hk
    · simp [Config.isKeyCode, hk]
      rintro rfl
      omega

/-! ### The wait for a key -/

theorem frame_key (s : State) (x : Reg) (k : Byte) :
    Frame [x] [.waiting] [] s (({ s with waiting := false } : State).writeV x k).advance := by
  apply frame_of <;> simp
  intro q hq
  rw [readV_writeV, if_neg hq]
  rfl

theorem frame_noteWait (s : State) : Frame [] [.waiting] [] s s.noteWait := by
  apply frame_of <;> simp

theorem execLdVxK_of_key {x : Reg} {s : State} {k : Byte} (h : s.keyWait = .key k) :
    execLdVxK x s = .next (({ s with waiting := false } : State).writeV x k).advance := by
  simp [execLdVxK, h]

theorem execLdVxK_of_error {x : Reg} {s : State} {e : HostError} (h : s.keyWait = .error e) :
    execLdVxK x s = .fault (.inputSourceError e) := by
  simp [execLdVxK, h]

theorem execLdVxK_of_pending {x : Reg} {s : State} (h : s.keyWait = .pending) :
    execLdVxK x s = .next s.noteWait := by
  simp [execLdVxK, h, blocked]

/-- Settles O52: the answer is a key of the source, which is written while the wait is cleared. -/
theorem waitForKeyStoresTheKey : Obligations.WaitForKeyStoresTheKey := by
  intro x s k hk hcode
  exact ⟨_, execLdVxK_of_key (keyWait_eq_key_iff.2 ⟨hk, hcode⟩), readV_writeV_same _ x k, rfl, rfl,
    frame_key s x k⟩

/-- Settles O54: of the two next states of the wait-for-key, the one that is not blocked stores the
source's key. -/
theorem onlyKeyCodesAreStored : Obligations.OnlyKeyCodesAreStored := by
  intro x s t h hw
  rw [exec_ldVxK] at h
  obtain ⟨-, he⟩ | ⟨k, hk, he⟩ | ⟨e, -, he⟩ := execLdVxK_cases x s <;> rw [he] at h <;> cases h
  · cases hw
  · obtain ⟨hkey, hcode⟩ := keyWait_eq_key_iff.1 hk
    rw [advance_readV, readV_writeV_same]
    exact ⟨hcode, k, hkey, rfl⟩

/-- A call is blocked exactly where a wait-for-key is at `PC` and no key is pending (R8). -/
theorem executeOne_eq_blocked_iff {s : State} : executeOne s = .next .blocked ↔
    s.fault = none ∧ s.pc.toNat + 1 < Config.memSize ∧
      (∃ y, decode s.wordAtPC = .ok (.ldVxK y)) ∧ s.keyWait = .pending := by
  constructor
  · intro h
    obtain ⟨f, -, he⟩ | ⟨-, -, he⟩ | ⟨-, -, -, he⟩ | ⟨i, hf, hpc, hd, he⟩ := executeOne_cases s
    · rw [h] at he; cases he
    · rw [h] at he; cases he
    · rw [h] at he; cases he
    · obtain ⟨x, rfl, hk, -, -⟩ | ⟨-, ⟨t, -, hend⟩ | ⟨f, -, hend⟩ | ⟨r, -, hend⟩⟩ :=
        endOfCall_exec_cases i s
      · exact ⟨hf, hpc, ⟨x, hd⟩, hk⟩
      all_goals rw [h, hend] at he; cases he
  · rintro ⟨hf, hpc, ⟨y, hd⟩, hk⟩
    rw [executeOne_of_decode hf hpc hd, exec_ldVxK, execLdVxK_of_pending hk]
    rfl

/-- Settles O53: the wait's other two answers, and where a call is blocked. -/
theorem waitForKeyErrorsAndBlocks : Obligations.WaitForKeyErrorsAndBlocks := by
  intro x s
  exact ⟨fun e he => execLdVxK_of_error (keyWait_of_error he),
    fun hk => ⟨_, execLdVxK_of_pending (keyWait_of_pending hk), rfl, rfl, frame_noteWait s⟩,
    executeOne_eq_blocked_iff⟩

/-! ### The wait has no timeout (R253) -/

/-- A turn in which the wait-for-key finds no key: the timers' ticks, the note, and the next turn. -/
def blockedTurn (s : State) : State := s.beginTurn.noteWait.endTurn

theorem sameCore_blockedTurn (s : State) : SameCore s (blockedTurn s) := ⟨rfl, rfl, rfl, rfl, rfl, rfl⟩

/-- A blocked turn is the step, and no CORE step. -/
theorem step_blocked {s : State} {x : Reg} (hf : s.fault = none)
    (hpc : s.pc.toNat + 1 < Config.memSize) (hd : decode s.wordAtPC = .ok (.ldVxK x))
    (hk : s.keyWait = .pending) :
    step s = .next (blockedTurn s) ∧ ∀ n, okSteps (n + 1) s = okSteps n (blockedTurn s) := by
  have hcall : executeOne s.beginTurn = .next .blocked :=
    executeOne_eq_blocked_iff.2 ⟨hf, hpc, ⟨x, hd⟩, hk⟩
  refine ⟨?_, fun n => ?_⟩
  · rw [step, hcall]
    rfl
  · rw [okSteps, okStepsWith, hcall]
    rfl

/-- Settles O55, by induction on the number of turns: each is the same blocked turn. -/
theorem blockedWaitHasNoTimeout : Obligations.BlockedWaitHasNoTimeout := by
  intro n x s hf hpc hd hn hidle
  suffices okSteps n s = 0 ∧ ∃ t, Host.Core.run Sys2Proof.core n s = .next t ∧ SameCore s t ∧
      t.fault = none ∧ t.host = s.host.drop n ∧
      t.dt.toNat = s.dt.toNat - ((s.host.take n).map HostTurn.ticks).sum by
    obtain ⟨hok, t, hrun, h, hrest⟩ := this
    exact ⟨hok, t, hrun, h.pc, h.v, h.idx, h.stack, h.disp, h.mem, hrest⟩
  induction n generalizing s with
  | zero => exact ⟨rfl, s, rfl, ⟨rfl, rfl, rfl, rfl, rfl, rfl⟩, hf, rfl, rfl⟩
  | succ n ih =>
    match hs : s.host with
    | [] => simp [hs] at hn
    | turn :: host =>
      simp only [hs, List.take_succ_cons, List.mem_cons, forall_eq_or_imp] at hidle
      obtain ⟨hpending, hidle⟩ := hidle
      have hturn : s.hostTurn = turn := by simp [State.hostTurn, hs]
      obtain ⟨hstep, hok⟩ := step_blocked hf hpc hd (keyWait_of_pending (hturn ▸ hpending))
      have hsame := sameCore_blockedTurn s
      have hhost : (blockedTurn s).host = host := by simp [blockedTurn, hs]
      obtain ⟨hok', t, hrun, ht, hft, hdrop, hdt⟩ := ih (blockedTurn s) hf (hsame.pc ▸ hpc)
        (hsame.wordAtPC ▸ hd) (by rw [hhost]; simpa [hs] using hn) (by rwa [hhost])
      refine ⟨(hok n).trans hok', t, (run_next hstep).trans hrun, hsame.trans ht, hft, ?_, ?_⟩
      · rw [hdrop, hhost, List.drop_succ_cons]
      · have hticks : (blockedTurn s).dt.toNat = s.dt.toNat - turn.ticks := by
          rw [← hturn]
          exact timerAfter_toNat _ _
        rw [hdt, hticks, hhost, List.take_succ_cons, List.map_cons, List.sum_cons]
        omega

end Sys2Proof.Machine
end

section
/-! Draw and the compositor (spec/45_display.md R211 to R218): compositing flips exactly the sprite's pixels
and collides exactly on those that were on; the rest is what a sprite's pixels are. -/

namespace Sys2Proof.Machine

/-! ### Compositing, pixel by pixel -/

/-- The mask of the sprite row that falls on display row `r` has the sprite's pixels. -/
theorem rowMask_eq_spritePixel (cx cy : Nat) (rows : List Byte) (r : Fin 32) (c : Fin 64) :
    (rowMask ((rows[(r.val + (32 - (cy % 32 + 0) % 32)) % 32]?).getD 0) (cx % 64)).getLsbD c
      = spritePixel cx cy rows r c := by
  rw [rowMask_getLsbD _ _ _ (Nat.mod_lt _ (by decide)) c.isLt, Nat.add_zero, Nat.mod_mod]
  rfl

theorem compositeSprite_pixel (d : Display) (cx cy : Nat) {rows : List Byte} (h : rows.length ≤ 32)
    (r : Fin 32) (c : Fin 64) :
    ((compositeSprite d cx cy rows).1.row r).getLsbD c
      = ((d.row r).getLsbD c ^^ spritePixel cx cy rows r c) := by
  have hx : cx % 64 < 64 := Nat.mod_lt _ (by decide)
  obtain ⟨hbits, -⟩ := compositeFrom_bits (cx % 64) (cy % 32) hx rows 0 d false h
  rw [compositeSprite, hbits r c c.isLt, rowMask_eq_spritePixel]

theorem compositeSprite_collides_iff (d : Display) (cx cy : Nat) {rows : List Byte}
    (h : rows.length ≤ 32) :
    (compositeSprite d cx cy rows).2 = true ↔
      ∃ (r : Fin 32) (c : Fin 64), (d.row r).getLsbD c = true ∧ spritePixel cx cy rows r c = true := by
  have hx : cx % 64 < 64 := Nat.mod_lt _ (by decide)
  obtain ⟨-, hcoll⟩ := compositeFrom_bits (cx % 64) (cy % 32) hx rows 0 d false h
  rw [compositeSprite, hcoll]
  constructor
  · rintro (hfalse | ⟨r, c, hc, hd, hm⟩)
    · cases hfalse
    · exact ⟨r, ⟨c, hc⟩, hd, (rowMask_eq_spritePixel cx cy rows r ⟨c, hc⟩).symm.trans hm⟩
  · rintro ⟨r, c, hd, hp⟩
    exact .inr ⟨r, c, c.isLt, hd, (rowMask_eq_spritePixel cx cy rows r c).trans hp⟩

/-! ### Draw -/

/-- The sprite's rows are the bytes at `I` onward (R213). -/
theorem readBytes_dataAddr (s : State) (n : Nat) :
    s.mem.readBytes (dataAddr s 0) n = (List.range n).map fun k => s.mem.read (dataAddr s k) := by
  apply List.ext_getElem?
  intro k
  rw [Memory.getElem?_readBytes, List.getElem?_map, ← dataAddr_eq]
  by_cases hk : k < n
  · rw [if_pos hk, List.getElem?_range hk]
    rfl
  · rw [if_neg hk, List.getElem?_eq_none (by simpa using hk)]
    rfl

theorem frame_drawSprite (s : State) (x y : Reg) (rows : List Byte) :
    Frame [VF] [.disp] [] s (drawSprite s x y rows).advance := by
  apply frame_of <;> simp
  intro r hr
  rw [readV_drawSprite, if_neg hr]

/-- Settles O57: the draw composites the rows it reads and sets the flag of the collision. -/
theorem drawFlipsExactlyTheSpritesPixels : Obligations.DrawFlipsExactlyTheSpritesPixels := by
  intro x y n s hn hrange
  rw [← readBytes_dataAddr]
  have hlen : (s.mem.readBytes (dataAddr s 0) n).length ≤ 32 := by
    rw [Memory.length_readBytes]
    omega
  have hcoll := compositeSprite_collides_iff s.disp (s.readV x).toNat (s.readV y).toNat hlen
  refine ⟨_, (exec_drw x y n s).trans (checkRange_of_le hrange), fun r c => ?pixels, ?flag, rfl,
    frame_drawSprite s x y _⟩
  case pixels => exact compositeSprite_pixel _ _ _ hlen r c
  case flag =>
    rw [advance_readV, readV_drawSprite, if_pos rfl]
    cases hc : (compositeSprite s.disp (s.readV x).toNat (s.readV y).toNat
      (s.mem.readBytes (dataAddr s 0) n)).2 with
    | true => exact .inl ⟨rfl, hcoll.1 hc⟩
    | false =>
      refine .inr ⟨rfl, fun r c hd => ?_⟩
      by_contra hp
      rw [Bool.not_eq_false] at hp
      rw [hcoll.2 ⟨r, c, hd, hp⟩] at hc
      cases hc

/-! ### Drawing twice (R218) -/

/-- Two displays with the same pixels are the same. -/
theorem display_ext_pixel {d e : Display}
    (h : ∀ (r : Fin 32) (c : Fin 64), (d.row r).getLsbD c = (e.row r).getLsbD c) : d = e :=
  display_ext fun r => BitVec.eq_of_getLsbD_eq fun c hc => h r ⟨c, hc⟩

/-- Wherever it is drawn, a sprite has a pixel exactly if one of its bytes has a bit set. -/
theorem exists_spritePixel_iff (cx cy : Nat) {rows : List Byte} (h : rows.length ≤ 32) :
    (∃ (r : Fin 32) (c : Fin 64), spritePixel cx cy rows r c = true) ↔ ∃ b ∈ rows, b ≠ 0 := by
  constructor
  · rintro ⟨r, c, hp⟩
    rw [spritePixel, Bool.and_eq_true] at hp
    obtain ⟨-, hbit⟩ := hp
    cases hb : rows[(r.val + (32 - cy % 32)) % 32]? with
    | none =>
      rw [hb] at hbit
      simp at hbit
    | some b =>
      rw [hb] at hbit
      refine ⟨b, List.mem_of_getElem? hb, ?_⟩
      rintro rfl
      simp at hbit
  · rintro ⟨b, hb, hne⟩
    obtain ⟨i, hi, rfl⟩ := List.getElem_of_mem hb
    obtain ⟨j, hj, hbit⟩ : ∃ j, j < 8 ∧ rows[i].getLsbD j = true := by
      by_contra hnone
      push Not at hnone
      exact hne (BitVec.eq_of_getLsbD_eq fun j hj => by simpa using hnone j hj)
    refine ⟨⟨(cy + i) % 32, Nat.mod_lt _ (by decide)⟩, ⟨(cx + (7 - j)) % 64, Nat.mod_lt _ (by decide)⟩, ?_⟩
    have hrow : ((cy + i) % 32 + (32 - cy % 32)) % 32 = i := by omega
    have hcol : ((cx + (7 - j)) % 64 + (64 - cx % 64)) % 64 = 7 - j := by omega
    have hj' : 7 - (7 - j) = j := by omega
    simp only [spritePixel, hrow, hcol, hj', List.getElem?_eq_getElem hi, Option.getD_some, hbit]
    simpa using by omega

/-- Settles O59: a pixel flipped twice is as it was; a clear display has no pixel to collide with, and after
one draw its pixels are the sprite's. -/
theorem drawTwiceRestoresDisplay : Obligations.DrawTwiceRestoresDisplay := by
  intro d cx cy rows hlen
  have h : rows.length ≤ 32 := by omega
  refine ⟨display_ext_pixel fun r c => ?twice, ?first, ?second⟩
  case twice =>
    rw [compositeSprite_pixel _ _ _ h, compositeSprite_pixel _ _ _ h, Bool.xor_assoc, Bool.xor_self,
      Bool.xor_false]
  case first =>
    rw [← Bool.not_eq_true, compositeSprite_collides_iff _ _ _ h]
    simp
  case second =>
    rw [compositeSprite_collides_iff _ _ _ h, ← exists_spritePixel_iff cx cy h]
    simp only [compositeSprite_pixel _ _ _ h]
    simp

/-! ### One sprite row (R216, R218) -/

/-- One byte on a clear display: its mask on the row it falls on, and nothing elsewhere. -/
theorem compositeSprite_clear_row (b : Byte) (cx cy : Nat) (r : Fin 32) :
    (compositeSprite Display.clear cx cy [b]).1.row r
      = if r.val = cy % 32 then rowMask b (cx % 64) else 0 := by
  apply BitVec.eq_of_getLsbD_eq
  intro c hc
  have hpixel := compositeSprite_pixel Display.clear cx cy (rows := [b]) (by simp) r ⟨c, hc⟩
  rw [row_clear, ← rowMask_eq_spritePixel] at hpixel
  have hr := r.isLt
  rw [hpixel]
  split
  · next h =>
    have hidx : (r.val + (32 - (cy % 32 + 0) % 32)) % 32 = 0 := by omega
    simp only [hidx]
    simp
  · next h =>
    have hidx : ¬(r.val + (32 - (cy % 32 + 0) % 32)) % 32 = 0 := by omega
    rw [List.getElem?_eq_none (by simp; omega)]
    simp [rowMask_getLsbD _ _ _ (Nat.mod_lt cx (show 0 < 64 by decide)) hc]

theorem range_rotate (x0 : Nat) :
    (List.range 64).rotate x0 = (List.range 64).map fun k => (k + x0) % 64 := by
  apply List.ext_getElem <;> simp [List.getElem_rotate]

/-- No pixel of a row's mask is lost at the edge: counted from the mask's first column on, round the edge, its
pixels are the byte's bits. -/
theorem countP_rowMask (b : Byte) {x0 : Nat} (hx : x0 < 64) :
    (List.range 64).countP (rowMask b x0).getLsbD = (List.range 8).countP b.getLsbD := by
  have hpixel : ∀ k ∈ List.range 64, (rowMask b x0).getLsbD ((k + x0) % 64) = true ↔
      (b.getLsbD (7 - k) && decide (k < 8)) = true := by
    intro k hk
    have hlt : k < 64 := List.mem_range.1 hk
    have hcol : ((k + x0) % 64 + (64 - x0)) % 64 = k := by omega
    rw [rowMask_getLsbD b x0 _ hx (Nat.mod_lt _ (by decide)), hcol, Bool.and_comm]
  have hfirst : (List.range 64).filter (fun k => decide (k < 8)) = List.range 8 := by decide
  have hreverse : (List.range 8).map (fun k => 7 - k) = (List.range 8).reverse := by decide
  calc (List.range 64).countP (rowMask b x0).getLsbD
      = ((List.range 64).rotate x0).countP (rowMask b x0).getLsbD :=
        ((List.rotate_perm _ x0).countP_eq _).symm
    _ = (List.range 64).countP fun k => (rowMask b x0).getLsbD ((k + x0) % 64) := by
        rw [range_rotate, List.countP_map]
        rfl
    _ = (List.range 64).countP fun k => b.getLsbD (7 - k) && decide (k < 8) :=
        List.countP_congr hpixel
    _ = (List.range 8).countP fun k => b.getLsbD (7 - k) := by
        rw [← List.countP_filter, hfirst]
    _ = ((List.range 8).map fun k => 7 - k).countP b.getLsbD := by
        rw [List.countP_map]
        rfl
    _ = (List.range 8).countP b.getLsbD := by rw [hreverse, List.countP_reverse]

theorem rowMask_of_le (b : Byte) {x0 : Nat} (hx : x0 ≤ 56) :
    rowMask b x0 = b.reverse.setWidth 64 <<< x0 := by
  apply BitVec.eq_of_getLsbD_eq
  intro c hc
  rw [rowMask_getLsbD b x0 c (by omega) hc]
  simp only [BitVec.getLsbD_shiftLeft, BitVec.getLsbD_setWidth, BitVec.getLsbD_reverse, BitVec.getMsbD]
  by_cases hlt : c < x0
  · have hout : ¬(c + (64 - x0)) % 64 < 8 := by omega
    simp [hlt, hout]
  · have hmod : (c + (64 - x0)) % 64 = c - x0 := by omega
    have hidx : 8 - 1 - (c - x0) = 7 - (c - x0) := by omega
    have hk : c - x0 < 64 := by omega
    simp [hlt, hmod, hc, hk]

/-- Settles O60: the byte's mask is the one row lit, and a mask loses no pixel. -/
theorem spriteRowWrapsWithoutLoss : Obligations.SpriteRowWrapsWithoutLoss := by
  intro b cx cy
  refine ⟨fun r hr => ?_, fun r hr => ?_⟩
  · rw [compositeSprite_clear_row, if_neg hr]
  · rw [compositeSprite_clear_row, if_pos hr]
    exact ⟨countP_rowMask b (Nat.mod_lt _ (by decide)), rowMask_of_le b⟩

end Sys2Proof.Machine
end

section
/-! What the timers affect (spec/10_state.md R29): nothing reads `ST`, and only LD Vx, DT reads `DT`. Setting
the timers before an instruction that does not name them is setting them after it. -/

namespace Sys2Proof.Machine

/-! ### A change of the next state -/

theorem mapNext_checkRange (g : State → State) (a n : Nat) (t : State) :
    mapNext g (checkRange a n (.next t)) = checkRange a n (.next (g t)) := by
  obtain ⟨h, he⟩ | ⟨hn, h, he⟩ := checkRange_cases a n (.next t)
  · rw [he, checkRange_of_le h]
    rfl
  · rw [he, checkRange_of_gt hn h]
    rfl

theorem mapNext_congr {g g' : State → State} {o : Host.Outcome State Fault Refusal}
    (h : ∀ t, o = .next t → g t = g' t) : mapNext g o = mapNext g' o := by
  cases o with
  | next t => exact congrArg _ (h t rfl)
  | fault f => rfl
  | refused r => rfl

/-! ### Setting the timers -/

/-- The state with its timers set. -/
def State.setTimers (d e : Byte) (s : State) : State := { s with dt := d, st := e }

/-- The instructions that name a timer (R192, R194, R195). -/
def NamesTimer (i : Instr) : Prop := ∃ x, i = .ldVxDT x ∨ i = .ldDTVx x ∨ i = .ldSTVx x

theorem exec_setTimers {i : Instr} (hi : ¬NamesTimer i) (d e : Byte) (s : State) :
    exec i (s.setTimers d e) = mapNext (State.setTimers d e) (exec i s) := by
  cases i
  case ldVxDT x => exact absurd ⟨x, .inl rfl⟩ hi
  case ldDTVx x => exact absurd ⟨x, .inr (.inl rfl)⟩ hi
  case ldSTVx x => exact absurd ⟨x, .inr (.inr rfl)⟩ hi
  case drw => rw [exec_drw, exec_drw, mapNext_checkRange]; rfl
  case ldB => rw [exec_ldB, exec_ldB, storeAtI, storeAtI, mapNext_checkRange]; rfl
  case ldMemVx => rw [exec_ldMemVx, exec_ldMemVx, storeAtI, storeAtI, mapNext_checkRange]; rfl
  case ldVxMem => rw [exec_ldVxMem, exec_ldVxMem, mapNext_checkRange]; rfl
  case ret =>
    cases hs : s.stack with
    | nil => rw [exec_ret_of_nil hs, exec_ret_of_nil (s := s.setTimers d e) hs]; rfl
    | cons a rest => rw [exec_ret_of_cons hs, exec_ret_of_cons (s := s.setTimers d e) hs]; rfl
  case call nnn =>
    by_cases hroom : s.sp < Config.stackDepth
    · rw [exec_call_of_room hroom, exec_call_of_room (s := s.setTimers d e) hroom]; rfl
    · have hfull := not_lt.1 hroom
      rw [exec_call_of_full hfull, exec_call_of_full (s := s.setTimers d e) hfull]; rfl
  case ldVxK x =>
    rw [exec_ldVxK, exec_ldVxK]
    obtain ⟨hk, he⟩ | ⟨k, hk, he⟩ | ⟨e, hk, he⟩ := execLdVxK_cases x s
    · rw [he, execLdVxK_of_pending (s := s.setTimers d _) hk]; rfl
    · rw [he, execLdVxK_of_key (s := s.setTimers d _) hk]; rfl
    · rw [he, execLdVxK_of_error (s := s.setTimers d _) hk]; rfl
  all_goals rfl

/-! ### The delay timer -/

/-- Settles O30: the timers are set as they are but for `DT`; LD ST leaves `DT`, and LD DT overwrites it. -/
theorem delayTimerReadOnlyByGetTimer : Obligations.DelayTimerReadOnlyByGetTimer := by
  intro i s b hget
  refine ⟨fun hset => ?others, ?setter⟩
  case setter =>
    rintro ⟨x, rfl⟩
    rfl
  case others =>
    by_cases hi : NamesTimer i
    · obtain ⟨x, rfl | rfl | rfl⟩ := hi
      · exact absurd rfl (hget x)
      · exact absurd rfl (hset x)
      · rfl
    · refine (exec_setTimers hi b s.st s).trans (mapNext_congr fun t ht => ?_)
      have hst : t.st = s.st :=
        (exec_writes ht).st.resolve_right fun ⟨x, hx⟩ => hi ⟨x, .inr (.inr hx)⟩
      rw [State.setTimers, hst]

/-! ### The sound timer -/

/-- The state with `ST` at 0: two states agree but for `ST` where these are equal. -/
def State.clearST (s : State) : State := { s with st := 0 }

theorem eq_setST_of_clearST_eq {s t : State} (h : t.clearST = s.clearST) :
    t = { s with st := t.st } :=
  congrArg (fun u : State => { u with st := t.st }) h

theorem mapNext_clearST_exec (i : Instr) (s : State) (b : Byte) :
    mapNext State.clearST (exec i { s with st := b }) = mapNext State.clearST (exec i s) := by
  by_cases hi : NamesTimer i
  · obtain ⟨x, rfl | rfl | rfl⟩ := hi <;> rfl
  · have hset : exec i { s with st := b } = mapNext (State.setTimers s.dt b) (exec i s) :=
      exec_setTimers hi s.dt b s
    have hdt (t : State) (ht : exec i s = .next t) : t.dt = s.dt :=
      (exec_writes ht).dt.resolve_right fun ⟨x, hx⟩ => hi ⟨x, .inr (.inl hx)⟩
    rw [hset]
    cases h : exec i s with
    | next t =>
      simp only [mapNext, State.setTimers, State.clearST, hdt t h]
    | fault f => rfl
    | refused r => rfl

theorem mapNext_clearST_finishTurn (o : Host.Outcome State Fault Refusal) :
    mapNext State.clearST (finishTurn o) = finishTurn (mapNext State.clearST o) := by
  cases o <;> rfl

/-- `ST` has no part in fetch or decode, so it has none in a step. -/
theorem mapNext_clearST_step (s : State) (b : Byte) :
    mapNext State.clearST (step { s with st := b }) = mapNext State.clearST (step s) := by
  obtain ⟨f, hf, he⟩ | ⟨hf, hpc, he⟩ | ⟨hf, hpc, ⟨e, hd⟩, he⟩ | ⟨i, hf, hpc, hd, -⟩ :=
    executeOne_cases s.beginTurn
  · have he' := executeOne_of_some (s := State.beginTurn { s with st := b }) hf
    rw [step_of_fault he, step_of_fault he']
  · have he' := (executeOne_of_none (s := State.beginTurn { s with st := b }) hf).trans
      (fetch_of_ge (s := State.beginTurn { s with st := b }) hpc _)
    rw [step_of_fault he, step_of_fault he']
    rfl
  · have he' := executeOne_of_unknown (s := State.beginTurn { s with st := b }) hf hpc hd
    rw [step_of_fault he, step_of_fault he']
    rfl
  · have hstep : step s = finishTurn (exec i s.beginTurn) := step_of_decode hf hpc hd
    have hstep' : step { s with st := b } = finishTurn (exec i (State.beginTurn { s with st := b })) :=
      step_of_decode hf hpc hd
    rw [hstep, hstep', mapNext_clearST_finishTurn, mapNext_clearST_finishTurn]
    exact congrArg finishTurn (mapNext_clearST_exec i s.beginTurn _)

/-- Settles O29, by induction on the length of the run: after each step the two states differ at most in
`ST`. -/
theorem soundTimerHasNoEffect : Obligations.SoundTimerHasNoEffect := by
  intro n s b
  change mapNext State.clearST _ = mapNext State.clearST _
  induction n generalizing s b with
  | zero => rfl
  | succ n ih =>
    have hstep := mapNext_clearST_step s b
    cases h : step s with
    | next t =>
      cases h' : step { s with st := b } with
      | next t' =>
        rw [h, h'] at hstep
        have ht : t'.clearST = t.clearST := by injection hstep
        rw [run_next h, run_next h', eq_setST_of_clearST_eq ht]
        exact ih t t'.st
      | fault f => rw [h, h'] at hstep; cases hstep
      | refused r => rw [h, h'] at hstep; cases hstep
    | fault f =>
      cases h' : step { s with st := b } with
      | next t' => rw [h, h'] at hstep; cases hstep
      | fault f' =>
        rw [h, h'] at hstep
        rw [run_fault h, run_fault h']
        exact hstep
      | refused r => rw [h, h'] at hstep; cases hstep
    | refused r => exact absurd h (step_ne_refused s r)

end Sys2Proof.Machine
end
